-- ==== Sys2Proof/Config.lean ====
section
/-! DEFINITION. The parameters of the core (00_scope.md R6), each a constant at the value this hardware takes
(the spec's own decisions among them: UNVERIFIED, log entry 8), and the free values: what the host
does next and the inputs it hands over, which the spec puts under no law. -/

namespace Sys2Proof.Config

/-! ### Sizes and widths

The machine's types take these constants through `delta%`, which puts the constant's value in its place when the type
is declared, so that a type reads `Fin 16` in every proof and its size still stands here alone. -/

/-- `MEM_SIZE` (R6): memory has the addresses 0 to 4094. -/
def memSize : Nat := 4095

/-- `LOAD_ADDR` (R6): where `load` puts a ROM, and the reset value of pc. -/
def loadAddr : Nat := 0x200

/-- `FONT_BASE` (R6). -/
def fontBase : Nat := 0

/-- `FONT_LEN` (R6): bytes in the font region. -/
def fontLen : Nat := 80

/-- `NREG` (R6): how many general registers there are. -/
def numRegs : Nat := 16

/-- The width of a general register (R6), and of a byte of memory (10_state.md R20). -/
def regWidth : Nat := 8

/-- The width of I (R6). -/
def indexWidth : Nat := 16

/-- The width of pc (R6). -/
def pcWidth : Nat := 16

/-- `STACK_DEPTH` (R6): how many return addresses the stack holds. -/
def stackDepth : Nat := 16

/-- The width of a stack entry (R6). -/
def stackWidth : Nat := 16

/-- The width of DT and of ST (R6). -/
def timerWidth : Nat := 8

/-- `DISP_W` (R6): columns of the display. -/
def dispW : Nat := 64

/-- `DISP_H` (R6): rows of the display. -/
def dispH : Nat := 32

/-- The instruction length in bytes, always (R6). -/
def instrLen : Nat := 2

/-- The number of keys (R6). -/
def numKeys : Nat := 16

/-! ### The font -/

/-- Bytes in one glyph (20_memory.md R57): the glyph for digit d stands at `fontBase + 5 * d`. -/
def glyphLen : Nat := 5

/-- Glyphs in the font, one per hexadecimal digit (20_memory.md R57). -/
def numGlyphs : Nat := 16

/-- Glyphs 0 to 7 (20_memory.md R58), top row first. -/
def fontLow : List (BitVec (delta% regWidth)) :=
  [0xF0, 0x90, 0x90, 0x90, 0xF0,  0x20, 0x60, 0x20, 0x20, 0x70,
   0xF0, 0x10, 0xF0, 0x80, 0xF0,  0xF0, 0x10, 0xF0, 0x10, 0xF0,
   0x90, 0x90, 0xF0, 0x10, 0x10,  0xF0, 0x80, 0xF0, 0x10, 0xF0,
   0xF0, 0x80, 0xF0, 0x90, 0xF0,  0xF0, 0x10, 0x20, 0x40, 0x40]

/-- Glyphs 8 to F (20_memory.md R58). -/
def fontHigh : List (BitVec (delta% regWidth)) :=
  [0xF0, 0x90, 0xF0, 0x90, 0xF0,  0xF0, 0x90, 0xF0, 0x10, 0xF0,
   0xF0, 0x90, 0xF0, 0x90, 0x90,  0xE0, 0x90, 0xE0, 0x90, 0xE0,
   0xF0, 0x80, 0x80, 0x80, 0xF0,  0xE0, 0x90, 0x90, 0x90, 0xE0,
   0xF0, 0x80, 0xF0, 0x80, 0xF0,  0xF0, 0x80, 0xF0, 0x80, 0x80]

/-- `FONT` (R6, 20_memory.md R58): the 80 bytes of the built-in hexadecimal font. -/
def font : List (BitVec (delta% regWidth)) := fontLow ++ fontHigh

/-! ### Quirks -/

/-- The two policies of the shift quirk (92_eei_decisions.md D7). -/
inductive ShiftSrc where
  /-- 8XY6 and 8XYE shift VX in place. -/
  | vx
  /-- They shift VY into VX: not this core. -/
  | vy
deriving DecidableEq, Repr

/-- `SHIFT_SRC` (R6). -/
def shiftSrc : ShiftSrc := .vx

/-- `JUMP_OFFSET_REG` (R6): BNNN adds V0. -/
def jumpOffsetReg : Fin (delta% numRegs) := 0

/-- `LOADSTORE_MOVES_I` (R6): FX55 and FX65 leave I unchanged. -/
def loadStoreMovesI : Bool := false

/-- `LOGIC_CLEARS_VF` (R6): 8XY1, 8XY2, 8XY3 leave VF unchanged. -/
def logicClearsVF : Bool := false

/-- The two edge policies of a sprite draw (90_conflicts.md C3). -/
inductive DrawEdge where
  /-- Every pixel coordinate is taken modulo the screen size. -/
  | wrap
  /-- Pixels past an edge are dropped: not this core. -/
  | clip
deriving DecidableEq, Repr

/-- `DRAW_EDGE` (R6). -/
def drawEdge : DrawEdge := .wrap

/-! ### Free values -/

/-- The five calls of the host (70_reset_and_hazards.md R265), without what the host hands over. -/
inductive HostCall where
  | construct
  | load
  | tick
  | decrementTimers
  | display
deriving DecidableEq, Repr, Inhabited

/-- FREE VALUE: which call the host makes next where State lists none (70_reset_and_hazards.md R265: in any order; R272:
any interleaving is a legal run).  No value of it can be proved.  DESIGN CHOICE of form, log entry 2; safe. -/
opaque freeCall : Nat → HostCall

/-- FREE VALUE: the byte sequence of a `load` that State does not list (70_reset_and_hazards.md R262: of any length).
No value of it can be proved.  DESIGN CHOICE of form, log entry 2; safe. -/
opaque freeRom : Nat → List (BitVec (delta% regWidth))

/-- FREE VALUE: the key sample of a tick for which State lists none (60_exceptions.md R248: under no law).
No value of it can be proved.  DESIGN CHOICE of form, log entry 1; safe. -/
opaque freeKeys : Nat → Vector Bool (delta% numKeys)

/-- FREE VALUE: the random byte of a tick for which State lists none (60_exceptions.md R250: a draw under no law).
No value of it can be proved.  DESIGN CHOICE of form, log entry 1; safe. -/
opaque freeRnd : Nat → BitVec (delta% regWidth)

end Sys2Proof.Config
end

