-- ==== Sys2Proof/Word.lean ====
section
/-! DEFINITION. The types of the machine's values, with the widths and sizes of `Config` (00_scope.md R6): bytes, 16-bit
words, 12-bit addresses, and the numbers of registers, keys, stack entries and display cells. -/

namespace Sys2Proof

/-- A general register, a byte of memory (10_state.md R20). -/
abbrev Byte := BitVec (delta% Config.regWidth)

/-- DT, ST (10_state.md R20). -/
abbrev TimerByte := BitVec (delta% Config.timerWidth)

/-- pc, and an opcode: two bytes (10_state.md R20, 30_encoding.md R80). -/
abbrev Word := BitVec (delta% Config.pcWidth)

/-- I (10_state.md R20). -/
abbrev IndexWord := BitVec (delta% Config.indexWidth)

/-- A stack entry (10_state.md R20). -/
abbrev StackWord := BitVec (delta% Config.stackWidth)

/-- The 12-bit immediate NNN (30_encoding.md R83). -/
abbrev Addr := BitVec 12

/-- A register number, the field X or Y (30_encoding.md R84). -/
abbrev Reg := Fin (delta% Config.numRegs)

/-- VF, the register that doubles as the flag (10_state.md R23). -/
abbrev VF : Reg := 15

/-- A key number (60_exceptions.md R248). -/
abbrev Key := Fin (delta% Config.numKeys)

/-- A digit with a glyph in the font (20_memory.md R57). -/
abbrev GlyphDigit := Fin (delta% Config.numGlyphs)

/-- The number of a stack entry (10_state.md R32). -/
abbrev StackIndex := Fin (delta% Config.stackDepth)

/-- A stack depth, 0 to STACK_DEPTH (10_state.md R32). -/
abbrev Depth := Fin ((delta% Config.stackDepth) + 1)

/-- A display column, 0 at the left (10_state.md R34). -/
abbrev Column := Fin (delta% Config.dispW)

/-- A display row, 0 at the top (10_state.md R34). -/
abbrev Row := Fin (delta% Config.dispH)

end Sys2Proof
end

