-- ==== Sys2Proof/Syntax.lean ====
section
/-! DEFINITION. The instruction set (30_encoding.md R85): one constructor for each of the 35 rows of
`spec/opcode_table.json`, in the table's order. -/

namespace Sys2Proof

/-- One CHIP-8 instruction.  `x` and `y` are the register fields X and Y, `nn` and `nnn` the immediates (R83, R84). -/
inductive Instr where
  /-- 00E0 `CLS` -/
  | cls
  /-- 00EE `RET` -/
  | ret
  /-- 0NNN `SYS NNN`, NNN neither 0E0 nor 0EE -/
  | sys (nnn : Addr)
  /-- 1NNN `JP NNN` -/
  | jp (nnn : Addr)
  /-- 2NNN `CALL NNN` -/
  | call (nnn : Addr)
  /-- 3XNN `SE VX, NN` -/
  | seImm (x : Reg) (nn : Byte)
  /-- 4XNN `SNE VX, NN` -/
  | sneImm (x : Reg) (nn : Byte)
  /-- 5XY0 `SE VX, VY` -/
  | seReg (x y : Reg)
  /-- 6XNN `LD VX, NN` -/
  | ldImm (x : Reg) (nn : Byte)
  /-- 7XNN `ADD VX, NN` -/
  | addImm (x : Reg) (nn : Byte)
  /-- 8XY0 `LD VX, VY` -/
  | ldReg (x y : Reg)
  /-- 8XY1 `OR VX, VY` -/
  | orReg (x y : Reg)
  /-- 8XY2 `AND VX, VY` -/
  | andReg (x y : Reg)
  /-- 8XY3 `XOR VX, VY` -/
  | xorReg (x y : Reg)
  /-- 8XY4 `ADD VX, VY` -/
  | addReg (x y : Reg)
  /-- 8XY5 `SUB VX, VY` -/
  | sub (x y : Reg)
  /-- 8XY6 `SHR VX`; Y is decoded and not used -/
  | shr (x y : Reg)
  /-- 8XY7 `SUBN VX, VY` -/
  | subn (x y : Reg)
  /-- 8XYE `SHL VX`; Y is decoded and not used -/
  | shl (x y : Reg)
  /-- 9XY0 `SNE VX, VY` -/
  | sneReg (x y : Reg)
  /-- ANNN `LD I, NNN` -/
  | ldI (nnn : Addr)
  /-- BNNN `JP V0, NNN` -/
  | jpV0 (nnn : Addr)
  /-- CXNN `RND VX, NN` -/
  | rnd (x : Reg) (nn : Byte)
  /-- DXYN `DRW VX, VY, N`; `n` is the sprite's height 0..15 -/
  | drw (x y : Reg) (n : Fin 16)
  /-- EX9E `SKP VX` -/
  | skp (x : Reg)
  /-- EXA1 `SKNP VX` -/
  | sknp (x : Reg)
  /-- FX07 `LD VX, DT` -/
  | ldVxDT (x : Reg)
  /-- FX0A `LD VX, K` -/
  | ldVxK (x : Reg)
  /-- FX15 `LD DT, VX` -/
  | ldDTVx (x : Reg)
  /-- FX18 `LD ST, VX` -/
  | ldSTVx (x : Reg)
  /-- FX1E `ADD I, VX` -/
  | addI (x : Reg)
  /-- FX29 `LD F, VX` -/
  | ldF (x : Reg)
  /-- FX33 `LD B, VX` -/
  | ldB (x : Reg)
  /-- FX55 `LD [I], VX` -/
  | ldMemVx (x : Reg)
  /-- FX65 `LD VX, [I]` -/
  | ldVxMem (x : Reg)
deriving DecidableEq, Repr

end Sys2Proof
end

