-- ==== Sys2Proof/WellFormed.lean ====
section
/-! DEFINITION. Which terms of `Instr` stand for an instruction word.  The types bound every field; the one check
left is that SYS does not take the two words that the rows before it take (30_encoding.md R85, R97). -/

namespace Sys2Proof

/-- The words 00E0 and 00EE are CLS and RET, so `sys` does not stand for them (41_control_flow.md R131). -/
def sysOperandOk (nnn : Addr) : Bool := nnn != 0x0E0 && nnn != 0x0EE

/-- Well-formed: every instruction but a `sys` whose word is another instruction's. -/
def Instr.wellFormed : Instr → Bool
  | .sys nnn => sysOperandOk nnn
  | .cls | .ret | .jp _ | .call _ | .seImm _ _ | .sneImm _ _ | .seReg _ _ | .ldImm _ _ | .addImm _ _ | .ldReg _ _
  | .orReg _ _ | .andReg _ _ | .xorReg _ _ | .addReg _ _ | .sub _ _ | .shr _ _ | .subn _ _ | .shl _ _ | .sneReg _ _
  | .ldI _ | .jpV0 _ | .rnd _ _ | .drw _ _ _ | .skp _ | .sknp _ | .ldVxDT _ | .ldVxK _ | .ldDTVx _ | .ldSTVx _
  | .addI _ | .ldF _ | .ldB _ | .ldMemVx _ | .ldVxMem _ => true

end Sys2Proof
end

