-- ==== Sys2Proof/Decode.lean ====
section
/-! DEFINITION. The decoder (30_encoding.md R80 to R86), total on any bytes and rejecting by name; then the encoder,
the opcode table of R85, and the host's `decodeTableWord`. -/

namespace Sys2Proof

/-- Why bytes are no instruction: the rows of 30_encoding.md R96, and too few bytes.  (The words of R96's first row
decode to `Instr.sys`, whose meaning raises the error: R86, R97.) -/
inductive DecodeError where
  /-- Fewer than two bytes were given. -/
  | truncated
  /-- 5XYn with n not 0. -/
  | illegal5 (n : Nat)
  /-- 8XYn with n in 8..D or F. -/
  | illegal8 (n : Nat)
  /-- 9XYn with n not 0. -/
  | illegal9 (n : Nat)
  /-- EXnn with nn neither 9E nor A1. -/
  | illegalE (nn : Nat)
  /-- FXnn with nn none of the nine selectors. -/
  | illegalF (nn : Nat)
deriving DecidableEq, Repr

/-- Nibble d1 = op[15:12] (R81). -/
def d1 (op : Word) : Nat := op.toNat / 4096

/-- Nibble d4 = op[3:0] (R81). -/
def d4 (op : Word) : Nat := op.toNat % 16

/-- The low byte d3 d4 = op[7:0], the selector of the EX and FX rows (R82). -/
def lowByte (op : Word) : Nat := op.toNat % 256

/-- X = op[11:8] (R84). -/
def fieldX (op : Word) : Reg := Fin.ofNat 16 (op.toNat / 256)

/-- Y = op[7:4] (R84). -/
def fieldY (op : Word) : Reg := Fin.ofNat 16 (op.toNat / 16)

/-- N = op[3:0] (R83). -/
def fieldN (op : Word) : Fin 16 := Fin.ofNat 16 op.toNat

/-- NN = op[7:0] (R83). -/
def fieldNN (op : Word) : Byte := BitVec.ofNat 8 op.toNat

/-- NNN = op[11:0] (R83). -/
def fieldNNN (op : Word) : Addr := BitVec.ofNat 12 op.toNat

/-- Rows with d1 = 0 (R86): CLS and RET before SYS (log entry 11). -/
def decode0 (op : Word) : Instr :=
  if op = 0x00E0 then .cls else if op = 0x00EE then .ret else .sys (fieldNNN op)

/-- Rows with d1 = 8 (R86), selected by d4. -/
def decode8 (op : Word) : Except DecodeError Instr :=
  let x := fieldX op
  let y := fieldY op
  match d4 op with
  | 0x0 => .ok (.ldReg x y)
  | 0x1 => .ok (.orReg x y)
  | 0x2 => .ok (.andReg x y)
  | 0x3 => .ok (.xorReg x y)
  | 0x4 => .ok (.addReg x y)
  | 0x5 => .ok (.sub x y)
  | 0x6 => .ok (.shr x y)
  | 0x7 => .ok (.subn x y)
  | 0xE => .ok (.shl x y)
  | n   => .error (.illegal8 n)

/-- Rows with d1 = E (R86), selected by the low byte. -/
def decodeE (op : Word) : Except DecodeError Instr :=
  match lowByte op with
  | 0x9E => .ok (.skp (fieldX op))
  | 0xA1 => .ok (.sknp (fieldX op))
  | nn   => .error (.illegalE nn)

/-- Rows with d1 = F (R86), selected by the low byte. -/
def decodeF (op : Word) : Except DecodeError Instr :=
  let x := fieldX op
  match lowByte op with
  | 0x07 => .ok (.ldVxDT x)
  | 0x0A => .ok (.ldVxK x)
  | 0x15 => .ok (.ldDTVx x)
  | 0x18 => .ok (.ldSTVx x)
  | 0x1E => .ok (.addI x)
  | 0x29 => .ok (.ldF x)
  | 0x33 => .ok (.ldB x)
  | 0x55 => .ok (.ldMemVx x)
  | 0x65 => .ok (.ldVxMem x)
  | nn   => .error (.illegalF nn)

/-- The decoder of 30_encoding.md R86: a total function of the 16 bits alone. -/
def decodeWord (op : Word) : Except DecodeError Instr :=
  match d1 op with
  | 0x0 => .ok (decode0 op)
  | 0x1 => .ok (.jp (fieldNNN op))
  | 0x2 => .ok (.call (fieldNNN op))
  | 0x3 => .ok (.seImm (fieldX op) (fieldNN op))
  | 0x4 => .ok (.sneImm (fieldX op) (fieldNN op))
  | 0x5 => if d4 op = 0 then .ok (.seReg (fieldX op) (fieldY op)) else .error (.illegal5 (d4 op))
  | 0x6 => .ok (.ldImm (fieldX op) (fieldNN op))
  | 0x7 => .ok (.addImm (fieldX op) (fieldNN op))
  | 0x8 => decode8 op
  | 0x9 => if d4 op = 0 then .ok (.sneReg (fieldX op) (fieldY op)) else .error (.illegal9 (d4 op))
  | 0xA => .ok (.ldI (fieldNNN op))
  | 0xB => .ok (.jpV0 (fieldNNN op))
  | 0xC => .ok (.rnd (fieldX op) (fieldNN op))
  | 0xD => .ok (.drw (fieldX op) (fieldY op) (fieldN op))
  | 0xE => decodeE op
  | _   => decodeF op

/-- Two bytes as one opcode, the first the more significant (20_memory.md R51). -/
def wordOfBytes (hi lo : Byte) : Word := BitVec.ofNat 16 (hi.toNat * 256 + lo.toNat)

/-- The high byte of an opcode, which stands at the lower address (R51). -/
def highByteOf (op : Word) : Byte := BitVec.ofNat 8 (op.toNat / 256)

/-- The low byte of an opcode. -/
def lowByteOf (op : Word) : Byte := BitVec.ofNat 8 op.toNat

/-- Decoding from a list of bytes: one instruction and the bytes after it (R80: every instruction is two bytes). -/
def decode : List Byte → Except DecodeError (Instr × List Byte)
  | hi :: lo :: rest => (decodeWord (wordOfBytes hi lo)).map (fun i => (i, rest))
  | [_] | [] => .error .truncated

/-! ### The encoder, from the patterns of 30_encoding.md R85 -/

/-- The formats of 30_encoding.md R82, as numbers. -/
def packNNN (d : Nat) (nnn : Addr) : Nat := d * 4096 + nnn.toNat

def packXNN (d : Nat) (x : Reg) (nn : Byte) : Nat := d * 4096 + x.val * 256 + nn.toNat

def packXYN (d : Nat) (x y n : Fin 16) : Nat := d * 4096 + x.val * 256 + y.val * 16 + n.val

def packX (d : Nat) (x : Reg) (selector : Nat) : Nat := d * 4096 + x.val * 256 + selector

/-- The opcode of an instruction as a number below 65536. -/
def encodeNat : Instr → Nat
  | .cls => 0x00E0
  | .ret => 0x00EE
  | .sys nnn => packNNN 0x0 nnn
  | .jp nnn => packNNN 0x1 nnn
  | .call nnn => packNNN 0x2 nnn
  | .seImm x nn => packXNN 0x3 x nn
  | .sneImm x nn => packXNN 0x4 x nn
  | .seReg x y => packXYN 0x5 x y 0x0
  | .ldImm x nn => packXNN 0x6 x nn
  | .addImm x nn => packXNN 0x7 x nn
  | .ldReg x y => packXYN 0x8 x y 0x0
  | .orReg x y => packXYN 0x8 x y 0x1
  | .andReg x y => packXYN 0x8 x y 0x2
  | .xorReg x y => packXYN 0x8 x y 0x3
  | .addReg x y => packXYN 0x8 x y 0x4
  | .sub x y => packXYN 0x8 x y 0x5
  | .shr x y => packXYN 0x8 x y 0x6
  | .subn x y => packXYN 0x8 x y 0x7
  | .shl x y => packXYN 0x8 x y 0xE
  | .sneReg x y => packXYN 0x9 x y 0x0
  | .ldI nnn => packNNN 0xA nnn
  | .jpV0 nnn => packNNN 0xB nnn
  | .rnd x nn => packXNN 0xC x nn
  | .drw x y n => packXYN 0xD x y n
  | .skp x => packX 0xE x 0x9E
  | .sknp x => packX 0xE x 0xA1
  | .ldVxDT x => packX 0xF x 0x07
  | .ldVxK x => packX 0xF x 0x0A
  | .ldDTVx x => packX 0xF x 0x15
  | .ldSTVx x => packX 0xF x 0x18
  | .addI x => packX 0xF x 0x1E
  | .ldF x => packX 0xF x 0x29
  | .ldB x => packX 0xF x 0x33
  | .ldMemVx x => packX 0xF x 0x55
  | .ldVxMem x => packX 0xF x 0x65

/-- The word of an instruction. -/
def encode (i : Instr) : Word := BitVec.ofNat 16 (encodeNat i)

/-- The two bytes of an instruction as memory holds them, high byte first (20_memory.md R51). -/
def encodeBytes (i : Instr) : List Byte := [highByteOf (encode i), lowByteOf (encode i)]

/-! ### The opcode table of 30_encoding.md R85 -/

/-- A row of the opcode map: a word fits the row iff `op & mask == value`, and then stands for `build op`. -/
structure OpcodeRow where
  mask  : Word
  value : Word
  build : Word → Instr

/-- `op & mask == match` (R85). -/
def OpcodeRow.fits (r : OpcodeRow) (op : Word) : Bool := op &&& r.mask == r.value

/-- Rows 1 to 10 of R85. -/
def opcodeRows1 : List OpcodeRow :=
  [⟨0xFFFF, 0x00E0, fun _ => .cls⟩,
   ⟨0xFFFF, 0x00EE, fun _ => .ret⟩,
   ⟨0xF000, 0x0000, fun op => .sys (fieldNNN op)⟩,
   ⟨0xF000, 0x1000, fun op => .jp (fieldNNN op)⟩,
   ⟨0xF000, 0x2000, fun op => .call (fieldNNN op)⟩,
   ⟨0xF000, 0x3000, fun op => .seImm (fieldX op) (fieldNN op)⟩,
   ⟨0xF000, 0x4000, fun op => .sneImm (fieldX op) (fieldNN op)⟩,
   ⟨0xF00F, 0x5000, fun op => .seReg (fieldX op) (fieldY op)⟩,
   ⟨0xF000, 0x6000, fun op => .ldImm (fieldX op) (fieldNN op)⟩,
   ⟨0xF000, 0x7000, fun op => .addImm (fieldX op) (fieldNN op)⟩]

/-- Rows 11 to 20 of R85. -/
def opcodeRows2 : List OpcodeRow :=
  [⟨0xF00F, 0x8000, fun op => .ldReg (fieldX op) (fieldY op)⟩,
   ⟨0xF00F, 0x8001, fun op => .orReg (fieldX op) (fieldY op)⟩,
   ⟨0xF00F, 0x8002, fun op => .andReg (fieldX op) (fieldY op)⟩,
   ⟨0xF00F, 0x8003, fun op => .xorReg (fieldX op) (fieldY op)⟩,
   ⟨0xF00F, 0x8004, fun op => .addReg (fieldX op) (fieldY op)⟩,
   ⟨0xF00F, 0x8005, fun op => .sub (fieldX op) (fieldY op)⟩,
   ⟨0xF00F, 0x8006, fun op => .shr (fieldX op) (fieldY op)⟩,
   ⟨0xF00F, 0x8007, fun op => .subn (fieldX op) (fieldY op)⟩,
   ⟨0xF00F, 0x800E, fun op => .shl (fieldX op) (fieldY op)⟩,
   ⟨0xF00F, 0x9000, fun op => .sneReg (fieldX op) (fieldY op)⟩]

/-- Rows 21 to 35 of R85. -/
def opcodeRows3 : List OpcodeRow :=
  [⟨0xF000, 0xA000, fun op => .ldI (fieldNNN op)⟩,
   ⟨0xF000, 0xB000, fun op => .jpV0 (fieldNNN op)⟩,
   ⟨0xF000, 0xC000, fun op => .rnd (fieldX op) (fieldNN op)⟩,
   ⟨0xF000, 0xD000, fun op => .drw (fieldX op) (fieldY op) (fieldN op)⟩,
   ⟨0xF0FF, 0xE09E, fun op => .skp (fieldX op)⟩,
   ⟨0xF0FF, 0xE0A1, fun op => .sknp (fieldX op)⟩,
   ⟨0xF0FF, 0xF007, fun op => .ldVxDT (fieldX op)⟩,
   ⟨0xF0FF, 0xF00A, fun op => .ldVxK (fieldX op)⟩,
   ⟨0xF0FF, 0xF015, fun op => .ldDTVx (fieldX op)⟩,
   ⟨0xF0FF, 0xF018, fun op => .ldSTVx (fieldX op)⟩,
   ⟨0xF0FF, 0xF01E, fun op => .addI (fieldX op)⟩,
   ⟨0xF0FF, 0xF029, fun op => .ldF (fieldX op)⟩,
   ⟨0xF0FF, 0xF033, fun op => .ldB (fieldX op)⟩,
   ⟨0xF0FF, 0xF055, fun op => .ldMemVx (fieldX op)⟩,
   ⟨0xF0FF, 0xF065, fun op => .ldVxMem (fieldX op)⟩]

/-- The 35 rows of R85 in the order the spec reads them. -/
def opcodeTable : List OpcodeRow := opcodeRows1 ++ opcodeRows2 ++ opcodeRows3

/-! ### The host's question -/

/-- The instruction the decoder reads from a row's word, numbered as `spec/opcode_table.json` numbers it (bit 0 the
least significant bit of the one 16-bit word; bits from `nbits` up are 0), laid out in memory order. -/
def decodeTableWord (nbits w : Nat) : Option Instr :=
  let op : Word := BitVec.ofNat 16 (w % 2 ^ nbits)
  match decode [highByteOf op, lowByteOf op] with
  | .ok (i, _) => some i
  | .error _ => none

end Sys2Proof
end

