-- ==== Sys2Proof/Machine/State.lean ====
section
/-! DEFINITION. The state of the core (10_state.md R20) beside the host's side of a run, the three errors, and the
state after reset.  Plain data throughout. -/

namespace Sys2Proof.Machine

/-- The three errors an operation can report to the host (60_exceptions.md R230, R231: names, no payload). -/
inductive Fault where
  /-- A memory access, key number or glyph number outside its array: raised by fetch, DXYN, FX33, FX55, FX65, EX9E,
  EXA1, FX29 and by `load` (R230).  Safe: the spec names the error, and it ends the run (log entry 4). -/
  | outOfBounds
  /-- The fetched word is none of the 34 executable instructions, SYS included: raised by decode and by 0NNN (R230,
  41_control_flow.md R131).  Safe: the spec names the error, and it ends the run (log entry 4). -/
  | invalidOpcode
  /-- CALL with sixteen addresses on the stack, RET with none (R230).  Safe: the spec names the error, and it ends the
  run (log entry 4). -/
  | stackFault
deriving DecidableEq, Repr

/-- Reasons to give an instruction no meaning. -/
inductive Refusal where
  /-- The instruction has no meaning yet: raised by `exec`'s arm alone, with the row's mnemonic.  Safe.  Every row has
  its meaning, so no arm raises it. -/
  | notModelled (mnemonic : String)
deriving DecidableEq, Repr

/-- The inputs of one tick (40_execution_cycle.md R110). -/
structure TickInput where
  /-- `KEYS[0]`..`KEYS[15]`, true = down (60_exceptions.md R248). -/
  keys : Vector Bool (delta% Config.numKeys)
  /-- `RND` (60_exceptions.md R250). -/
  rnd : Byte
deriving DecidableEq, Repr

/-- One call of the host (70_reset_and_hazards.md R265): each is one atomic step. -/
inductive HostMove where
  /-- `construct()` (R260) -/
  | construct
  /-- `load(bytes)` (R262) -/
  | load (bytes : List Byte)
  /-- `tick` with its KEYS and RND (40_execution_cycle.md R110) -/
  | tick (input : TickInput)
  /-- `decrement_timers()` (60_exceptions.md R244) -/
  | decrementTimers
  /-- `display()` (44_display.md R204) -/
  | display
deriving DecidableEq, Repr

/-- THE MODEL'S OWN FIELDS, not the core's (10_state.md R21; log entries 1, 2, 3): what the host hands to the core. -/
structure HostSide where
  /-- The host's next calls, the first one first, as far as they are fixed.  Once the list is empty, each further call
  is a free value, as the order of calls is under no law (70_reset_and_hazards.md R272; log entry 2). -/
  pending : List HostMove
  /-- KEYS and RND of the tick under way; every tick writes them before an instruction reads them. -/
  input : TickInput
  /-- How many free values of the host have been drawn: what `Config.freeCall`, `Config.freeRom`, `Config.freeKeys` and
  `Config.freeRnd` are applied to. -/
  draws : Nat
deriving DecidableEq, Repr

/-- Memory as (address, byte) pairs in one canonical form (`Memory.wf`): an address that is not listed reads as it
does after reset (10_state.md R40). -/
abbrev Memory := List Host.Cell

/-- The grid `disp[px][py]` (10_state.md R34): 64 columns of 32 cells, true = on. -/
abbrev Display := Vector (Vector Bool (delta% Config.dispH)) (delta% Config.dispW)

/-- The whole state of the core, the seven items of 10_state.md R20, and the host's side of the run. -/
structure State where
  /-- `mem` (R35) -/
  mem : Memory
  /-- `x[0]`..`x[15]`, that is V0..VF (R22) -/
  V : Vector Byte (delta% Config.numRegs)
  /-- `I` (R31) -/
  I : IndexWord
  /-- `pc` (R25): between operations, the address of the next instruction to fetch -/
  pc : Word
  /-- `stack[0]`..`stack[15]` (R32) -/
  stack : Vector StackWord (delta% Config.stackDepth)
  /-- `sp` (R32): how many return addresses are on the stack, 0..16 (log entry 6) -/
  sp : Depth
  /-- The delay timer (R33) -/
  DT : TimerByte
  /-- The sound timer (R33) -/
  ST : TimerByte
  /-- `disp` (R34) -/
  disp : Display
  /-- The host's side (not the core's state) -/
  host : HostSide
deriving DecidableEq, Repr

/-- What an instruction's meaning answers. -/
abbrev Result := Host.Outcome State Fault Refusal

/-- What an operation hands back to the host, WITH the state it leaves (40_execution_cycle.md R110, R116): `Ok`, or
`Err(e)` and the state the failed operation leaves. -/
inductive OpResult where
  | ok (s : State)
  | err (e : Fault) (s : State)
  /-- An instruction without a meaning was fetched; no instruction of this model is (see `Refusal`). -/
  | refused (r : Refusal)
deriving DecidableEq, Repr

/-- No key down and RND 0: the value that stands in `HostSide.input` before the first tick writes it.
DESIGN CHOICE, log entry 3; nothing reads it. -/
def TickInput.idle : TickInput := { keys := Vector.replicate _ false, rnd := 0 }

/-- No call fixed and no free value drawn.  DESIGN CHOICE, log entry 3. -/
def HostSide.fresh : HostSide := { pending := [], input := TickInput.idle, draws := 0 }

/-- Every cell off. -/
def Display.clear : Display := Vector.replicate _ (Vector.replicate _ false)

/-- The state after reset (10_state.md R40, 70_reset_and_hazards.md R260): memory lists nothing, so it reads as FONT
and zeros; pc = 0x200; everything else 0; the display off. -/
def State.reset : State where
  mem := []
  V := Vector.replicate _ 0
  I := 0
  pc := BitVec.ofNat _ Config.loadAddr
  stack := Vector.replicate _ 0
  sp := 0
  DT := 0
  ST := 0
  disp := Display.clear
  host := HostSide.fresh

end Sys2Proof.Machine
end

