-- ==== Sys2Proof/Machine/Ops.lean ====
section
/-! DEFINITION. The named operations over memory, registers, stack, pc and display; raising an error; fetching an
instruction; taking a tick's inputs. -/

namespace Sys2Proof.Machine

/-! ### Memory -/

/-- What an unlisted address reads as: the reset contents (10_state.md R40), FONT in 0..79 and 0 elsewhere (log
entry 12; at addresses that do not exist, log entry 10). -/
def resetByte (a : Nat) : Byte :=
  if Config.fontBase ≤ a ∧ a < Config.fontBase + Config.fontLen then Config.font.getD (a - Config.fontBase) 0 else 0

/-- An access to `a` is legal iff `a < MEM_SIZE` (20_memory.md R54); `a` is an unbounded integer. -/
def inMemory (a : Nat) : Bool := decide (a < Config.memSize)

/-- `mem[a]`.  Callers test the bound first (20_memory.md R56). -/
def Memory.read : Memory → Nat → Byte
  | [], a => resetByte a
  | (a', b) :: rest, a => if a' = a then b else Memory.read rest a

/-- Takes `a` out of the list. -/
def Memory.unlist (m : Memory) (a : Nat) : Memory := m.filter (fun c => c.1 != a)

/-- Puts a cell in front of the first cell with a higher address. -/
def Memory.insert : Memory → Nat → Byte → Memory
  | [], a, b => [(a, b)]
  | (a', b') :: rest, a, b => if a < a' then (a, b) :: (a', b') :: rest else (a', b') :: Memory.insert rest a b

/-- `mem[a] <- b`, keeping the canonical form: a byte equal to what the address reads as unlisted is not listed. -/
def Memory.write (m : Memory) (a : Nat) (b : Byte) : Memory :=
  if b = resetByte a then m.unlist a else (m.unlist a).insert a b

/-- `mem[a] <- b0, mem[a+1] <- b1, ...`: bytes at ascending addresses (20_memory.md R55). -/
def Memory.writeList : Memory → Nat → List Byte → Memory
  | m, _, [] => m
  | m, a, b :: bs => Memory.writeList (m.write a b) (a + 1) bs

/-- The canonical form from address `lo` on: addresses rise strictly, lie in memory, and no entry equals what its
address reads as unlisted. -/
def Memory.wfFrom : Nat → Memory → Bool
  | _, [] => true
  | lo, (a, b) :: rest => decide (lo ≤ a) && inMemory a && (b != resetByte a) && Memory.wfFrom (a + 1) rest

/-- The canonical form of a memory. -/
def Memory.wf (m : Memory) : Bool := Memory.wfFrom 0 m

/-- `MemRead(a, 2)` (00_scope.md R10): two bytes big-endian, or `OutOfBounds` if either is outside memory. -/
def Memory.read2 (m : Memory) (a : Nat) : Except Fault Word :=
  if inMemory (a + 1) then .ok (wordOfBytes (m.read a) (m.read (a + 1))) else .error .outOfBounds

/-- The byte at address `a` of the state's memory. -/
def State.byte (s : State) (a : Nat) : Byte := s.mem.read a

/-- Stores bytes at ascending addresses from `a`. -/
def State.storeBytes (s : State) (a : Nat) (bs : List Byte) : State := { s with mem := s.mem.writeList a bs }

/-! ### Errors -/

/-- `raise e` (00_scope.md R12), the ONE operation by which an instruction reports an error: the instruction has
written nothing, and the state the failed tick leaves is the one it was given, pc already advanced
(40_execution_cycle.md R114, R116; `tick` hands that state back). -/
def raise (e : Fault) : Result := .fault e

/-- Check before change (20_memory.md R56): `done`, if the `n` bytes from `a` on lie in memory, and `OutOfBounds`
otherwise; with `n = 0` no test is made. -/
def checkRange (a n : Nat) (done : Result) : Result :=
  if n = 0 then done else if inMemory (a + n - 1) then done else raise .outOfBounds

/-- The labels of 60_exceptions.md R231, which have no hardware meaning. -/
def Fault.label : Fault → Nat
  | .outOfBounds => 0
  | .invalidOpcode => 1
  | .stackFault => 2

/-! ### General registers, I, timers -/

/-- `x[i]` (00_scope.md R9, 10_state.md R22): sixteen alike, none hard-wired. -/
def State.reg (s : State) (i : Reg) : Byte := s.V[i]

/-- `x[i] <- v`. -/
def State.setReg (s : State) (i : Reg) (v : Byte) : State := { s with V := s.V.set i v }

/-- `I <- w`. -/
def State.setI (s : State) (w : IndexWord) : State := { s with I := w }

/-- `DT <- v`. -/
def State.setDT (s : State) (v : TimerByte) : State := { s with DT := v }

/-- `ST <- v`. -/
def State.setST (s : State) (v : TimerByte) : State := { s with ST := v }

/-- `x[k] <- mem[a + k]` for k = 0..n-1 (43_index_memory.md R187). -/
def State.loadRegs (s : State) (a : Nat) : Nat → State
  | 0 => s
  | n + 1 => (s.loadRegs a n).setReg (Fin.ofNat (delta% Config.numRegs) n) (s.byte (a + n))

/-! ### Program counter -/

/-- `pc <- w`. -/
def State.setPc (s : State) (w : Word) : State := { s with pc := w }

/-- The advance that fetch makes (40_execution_cycle.md R112), modulo 65536 (10_state.md R26). -/
def State.advancePc (s : State) : State := s.setPc (s.pc + BitVec.ofNat _ (delta% Config.instrLen))

/-- Undoes the fetch advance (45_timers_keys.md R216). -/
def State.retreatPc (s : State) : State := s.setPc (s.pc - BitVec.ofNat _ (delta% Config.instrLen))

/-- A skip (41_control_flow.md R140): a further 2 on the advanced pc, or nothing. -/
def State.skipIf (s : State) (c : Bool) : State := if c then s.advancePc else s

/-! ### Call stack -/

/-- `stack[sp] <- w; sp <- sp + 1`, or `StackFault` when sixteen addresses are there (41_control_flow.md R134). -/
def State.push (s : State) (w : StackWord) : Except Fault State :=
  if h : s.sp.val < delta% Config.stackDepth then
    .ok { s with stack := s.stack.set s.sp.val w, sp := ⟨s.sp.val + 1, by omega⟩ }
  else .error .stackFault

/-- `sp <- sp - 1` and the address at `stack[sp]`, or `StackFault` when the stack is empty (41_control_flow.md R132).
The popped entry stays in the array (10_state.md R32). -/
def State.pop (s : State) : Except Fault (StackWord × State) :=
  if h : 0 < s.sp.val then
    .ok (s.stack[s.sp.val - 1]'(by omega), { s with sp := ⟨s.sp.val - 1, by omega⟩ })
  else .error .stackFault

/-! ### Display -/

/-- `disp[px][py]`. -/
def Display.get (d : Display) (px : Column) (py : Row) : Bool := d[px][py]

/-- `disp[px][py] <- v`. -/
def Display.put (d : Display) (px : Column) (py : Row) (v : Bool) : Display := d.set px (d[px].set py v)

/-- The state's cell (px, py). -/
def State.pixel (s : State) (px : Column) (py : Row) : Bool := s.disp.get px py

/-- Replaces the whole grid. -/
def State.setDisp (s : State) (d : Display) : State := { s with disp := d }

/-- Whether an unreduced coordinate is drawn at all: always under the wrap policy (`DRAW_EDGE`, 00_scope.md R6). -/
def pixelDrawn (px py : Nat) : Bool :=
  match Config.drawEdge with
  | .wrap => true
  | .clip => decide (px < Config.dispW) && decide (py < Config.dispH)

/-- XORs one sprite bit onto the grid at (px mod 64, py mod 32) and notes a collision (44_display.md R202): an off bit
does nothing. -/
def plot (px py : Nat) (bit : Bool) (acc : Display × Bool) : Display × Bool :=
  if bit && pixelDrawn px py then
    let cell := acc.1.get (Fin.ofNat (delta% Config.dispW) px) (Fin.ofNat (delta% Config.dispH) py)
    (acc.1.put (Fin.ofNat (delta% Config.dispW) px) (Fin.ofNat (delta% Config.dispH) py) (!cell), acc.2 || cell)
  else acc

/-- Row k of a sprite: columns c = 0..7, leftmost first; column c is bit 7 - c (44_display.md R200, R202). -/
def plotRow (x0 y : Nat) (b : Byte) (acc : Display × Bool) : Display × Bool :=
  (List.range 8).foldl (fun acc c => plot (x0 + c) y (b.getLsbD (7 - c)) acc) acc

/-- The whole sprite: rows k = 0..n-1, row k from the byte at a + k; answers the new grid and whether any on bit met
an on cell (R202). -/
def plotSprite (m : Memory) (a x0 y0 n : Nat) (d : Display) : Display × Bool :=
  (List.range n).foldl (fun acc k => plotRow x0 (y0 + k) (m.read (a + k)) acc) (d, false)

/-! ### Fetch and the inputs of a tick -/

/-- Fetch (40_execution_cycle.md R112): both bytes inside memory, composed big-endian. -/
def fetch (s : State) : Except Fault Word := s.mem.read2 s.pc.toNat

/-- Hands the tick under way its KEYS and RND (60_exceptions.md R248, R250). -/
def State.withInput (s : State) (input : TickInput) : State := { s with host := { s.host with input := input } }

/-- A sample that State does not list: free values (log entry 1). -/
def freeInput (draw : Nat) : TickInput := { keys := Config.freeKeys draw, rnd := Config.freeRnd draw }

/-- A call of the host that State does not list: any of the five, with any operands (70_reset_and_hazards.md R265, R272;
log entry 2). -/
def freeMove (draw : Nat) : HostMove :=
  match Config.freeCall draw with
  | .construct => .construct
  | .load => .load (Config.freeRom draw)
  | .tick => .tick (freeInput draw)
  | .decrementTimers => .decrementTimers
  | .display => .display

/-- The host's next call, and the state with that call taken off the list; when none is listed, a free one. -/
def State.nextMove (s : State) : HostMove × State :=
  match s.host.pending with
  | [] => (freeMove s.host.draws, { s with host := { s.host with draws := s.host.draws + 1 } })
  | move :: rest => (move, { s with host := { s.host with pending := rest } })

end Sys2Proof.Machine
end

