-- ==== Sys2Proof/Machine/Operands.lean ====
section
/-! DEFINITION. The operand forms of the instruction set and the arithmetic of their results: addresses, immediates,
register and digit operands, keys, 8-bit sums, differences and shifts, decimal digits. -/

namespace Sys2Proof.Machine

/-! ### Operand forms -/

/-- NNN as a 16-bit value, zero-extended (30_encoding.md R83, 43_index_memory.md R181). -/
def addrWord (nnn : Addr) : Word := BitVec.ofNat 16 nnn.toNat

/-- The effective address I + k, an unbounded integer (20_memory.md R54, R55): the one addressing mode. -/
def State.ea (s : State) (k : Nat) : Nat := s.I.toNat + k

/-- A register used as a number below n, a key number or a glyph number (45_timers_keys.md R210, 43_index_memory.md
R183): OutOfBounds from n on. -/
def digit (n : Nat) (v : Byte) : Except Fault (Fin n) :=
  if h : v.toNat < n then .ok ⟨v.toNat, h⟩ else .error .outOfBounds

/-- The register a shift works on (`SHIFT_SRC`, 00_scope.md R6). -/
def shiftOperand (x y : Reg) : Reg :=
  match Config.shiftSrc with
  | .vx => x
  | .vy => y

/-- The target of BNNN: NNN plus the offset register, modulo 65536 (41_control_flow.md R135). -/
def State.offsetTarget (s : State) (nnn : Addr) : Word :=
  BitVec.ofNat 16 (nnn.toNat + (s.reg Config.jumpOffsetReg).toNat)

/-- The address of the glyph for digit d (43_index_memory.md R183). -/
def glyphAddr (d : GlyphDigit) : IndexWord := BitVec.ofNat _ (Config.fontBase + Config.glyphLen * d.val)

/-- `KEYS[k]` of the tick under way (60_exceptions.md R248). -/
def State.keyDown (s : State) (k : Key) : Bool := s.host.input.keys[k]

/-- The least k with `KEYS[k] = 1`, if any key is down (45_timers_keys.md R216). -/
def State.lowestKeyDown (s : State) : Option Key := (List.finRange (delta% Config.numKeys)).find? s.keyDown

/-- `RND` of the tick under way (60_exceptions.md R250). -/
def State.randomByte (s : State) : Byte := s.host.input.rnd

/-- I after FX55 or FX65 with the field X: unchanged unless `LOADSTORE_MOVES_I` (00_scope.md R6). -/
def State.afterBlock (s : State) (x : Reg) : State :=
  if Config.loadStoreMovesI then s.setI (BitVec.ofNat 16 (s.ea (x.val + 1))) else s

/-- The values of V0..VX in order, the bytes FX55 stores (43_index_memory.md R186). -/
def State.regsUpTo (s : State) (x : Reg) : List Byte :=
  (List.range (x.val + 1)).map (fun k => s.reg (Fin.ofNat (delta% Config.numRegs) k))

/-! ### Results, computed exactly and then narrowed (42_load_alu.md R150) -/

/-- `(a + b) mod 256`. -/
def addByte (a b : Byte) : Byte := BitVec.ofNat 8 ((a.toNat + b.toNat) % 256)

/-- `(a - b) mod 256`: `a - b` if `a >= b`, else `a - b + 256`. -/
def subByte (a b : Byte) : Byte :=
  BitVec.ofNat 8 (if b.toNat ≤ a.toNat then a.toNat - b.toNat else a.toNat + 256 - b.toNat)

/-- `a >> 1`, that is `floor(a / 2)` (42_load_alu.md R160). -/
def shrByte (a : Byte) : Byte := BitVec.ofNat 8 (a.toNat / 2)

/-- `(a * 2) mod 256` (42_load_alu.md R162). -/
def shlByte (a : Byte) : Byte := BitVec.ofNat 8 (a.toNat * 2 % 256)

/-- `(I + v) mod 65536` (43_index_memory.md R182). -/
def addIndex (i : IndexWord) (v : Byte) : IndexWord := BitVec.ofNat 16 ((i.toNat + v.toNat) % 65536)

/-- The decimal digits of a byte, hundreds first (43_index_memory.md R184): the bytes FX33 stores. -/
def bcdDigits (v : Byte) : List Byte :=
  [BitVec.ofNat 8 (v.toNat / 100), BitVec.ofNat 8 (v.toNat / 10 % 10), BitVec.ofNat 8 (v.toNat % 10)]

/-- One timer's countdown, floored at 0 (60_exceptions.md R244). -/
def countDown (t : TimerByte) : TimerByte := if t = 0 then 0 else t - 1

end Sys2Proof.Machine
end

