-- ==== Sys2Proof/Machine/Flags.lean ====
section
/-! DEFINITION. Every flag computation of the core: the values VF takes (10_state.md R28) and the order in which
result and flag are written (R29, 42_load_alu.md R157). -/

namespace Sys2Proof.Machine

/-- A flag as the value of VF: 1 or 0 (10_state.md R28). -/
def flagByte (f : Bool) : Byte := if f then 1 else 0

/-- 8XY4: 1 iff a + b >= 256 (42_load_alu.md R158). -/
def carryFlag (a b : Byte) : Bool := decide (256 ≤ a.toNat + b.toNat)

/-- 8XY5 and 8XY7 for `a - b`: 1 iff a >= b, no borrow (42_load_alu.md R159, R161). -/
def noBorrowFlag (a b : Byte) : Bool := decide (b.toNat ≤ a.toNat)

/-- 8XY6: the bit shifted out, a[0] (42_load_alu.md R160). -/
def shrFlag (a : Byte) : Bool := a.getLsbD 0

/-- 8XYE: the bit shifted out, a[7] (42_load_alu.md R162). -/
def shlFlag (a : Byte) : Bool := a.getLsbD 7

/-- The result to `x[X]`, THEN the flag to `x[15]` (42_load_alu.md R157): with X = 15 the flag wins. -/
def State.writeWithFlag (s : State) (x : Reg) (result : Byte) (flag : Bool) : State :=
  (s.setReg x result).setReg VF (flagByte flag)

/-- VF after 8XY1, 8XY2, 8XY3: unchanged unless `LOGIC_CLEARS_VF` (00_scope.md R6, 42_load_alu.md R157). -/
def State.afterLogic (s : State) : State := if Config.logicClearsVF then s.setReg VF 0 else s

end Sys2Proof.Machine
end

