-- ==== Sys2Proof/Machine/ControlFlow.lean ====
section
/-! DEFINITION. Control transfer instructions (41_control_flow.md).  `s.pc` is the address of the instruction after
the one being executed. -/

namespace Sys2Proof.Machine

/-- 0NNN `SYS NNN` (R131): always raises InvalidOpcode, never a no-op. -/
def execSys (_nnn : Addr) (_s : State) : Result := raise .invalidOpcode

/-- 00EE `RET` (R132). -/
def execRet (s : State) : Result :=
  match s.pop with
  | .ok (target, t) => .next (t.setPc target)
  | .error e => raise e

/-- 1NNN `JP NNN` (R133). -/
def execJp (nnn : Addr) (s : State) : Result := .next (s.setPc (addrWord nnn))

/-- 2NNN `CALL NNN` (R134): pushes the advanced pc. -/
def execCall (nnn : Addr) (s : State) : Result :=
  match s.push s.pc with
  | .ok t => .next (t.setPc (addrWord nnn))
  | .error e => raise e

/-- BNNN `JP V0, NNN` (R135). -/
def execJpV0 (nnn : Addr) (s : State) : Result := .next (s.setPc (s.offsetTarget nnn))

/-- 3XNN `SE VX, NN` (R136). -/
def execSeImm (x : Reg) (nn : Byte) (s : State) : Result := .next (s.skipIf (s.reg x == nn))

/-- 4XNN `SNE VX, NN` (R137). -/
def execSneImm (x : Reg) (nn : Byte) (s : State) : Result := .next (s.skipIf (s.reg x != nn))

/-- 5XY0 `SE VX, VY` (R138). -/
def execSeReg (x y : Reg) (s : State) : Result := .next (s.skipIf (s.reg x == s.reg y))

/-- 9XY0 `SNE VX, VY` (R139). -/
def execSneReg (x y : Reg) (s : State) : Result := .next (s.skipIf (s.reg x != s.reg y))

end Sys2Proof.Machine
end

