-- ==== Sys2Proof/Machine/DisplayOps.lean ====
section
/-! DEFINITION. Display instructions (44_display.md). -/

namespace Sys2Proof.Machine

/-- 00E0 `CLS` (R201). -/
def execCls (s : State) : Result := .next (s.setDisp Display.clear)

/-- DXYN `DRW VX, VY, N` (R202): both coordinates are read first, the range is checked before any change, and VF ends
as the collision flag. -/
def execDrw (x y : Reg) (n : Fin 16) (s : State) : Result :=
  let x0 := (s.reg x).toNat % delta% Config.dispW
  let y0 := (s.reg y).toNat % delta% Config.dispH
  let drawn := plotSprite s.mem (s.ea 0) x0 y0 n.val s.disp
  checkRange (s.ea 0) n.val (.next ((s.setDisp drawn.1).setReg VF (flagByte drawn.2)))

end Sys2Proof.Machine
end

