-- ==== Sys2Proof/Machine/IndexMemory.lean ====
section
/-! DEFINITION. Index register, BCD and register dump/load instructions (43_index_memory.md). -/

namespace Sys2Proof.Machine

/-- ANNN `LD I, NNN` (R181). -/
def execLdI (nnn : Addr) (s : State) : Result := .next (s.setI (addrWord nnn))

/-- FX1E `ADD I, VX` (R182): VF is not written. -/
def execAddI (x : Reg) (s : State) : Result := .next (s.setI (addIndex s.I (s.reg x)))

/-- FX29 `LD F, VX` (R183): OutOfBounds when VX > 15. -/
def execLdF (x : Reg) (s : State) : Result :=
  match digit (delta% Config.numGlyphs) (s.reg x) with
  | .ok d => .next (s.setI (glyphAddr d))
  | .error e => raise e

/-- FX33 `LD B, VX` (R185). -/
def execLdB (x : Reg) (s : State) : Result :=
  checkRange (s.ea 0) 3 (.next (s.storeBytes (s.ea 0) (bcdDigits (s.reg x))))

/-- FX55 `LD [I], VX` (R186). -/
def execLdMemVx (x : Reg) (s : State) : Result :=
  checkRange (s.ea 0) (x.val + 1) (.next ((s.storeBytes (s.ea 0) (s.regsUpTo x)).afterBlock x))

/-- FX65 `LD VX, [I]` (R187). -/
def execLdVxMem (x : Reg) (s : State) : Result :=
  checkRange (s.ea 0) (x.val + 1) (.next ((s.loadRegs (s.ea 0) (x.val + 1)).afterBlock x))

end Sys2Proof.Machine
end

