-- ==== Sys2Proof/Machine/LoadAlu.lean ====
section
/-! DEFINITION. Register load, arithmetic, logic, shift and random instructions (42_load_alu.md).  In every meaning the
state given is the one after fetch: `pc` is already the address of the next instruction (00_scope.md R13). -/

namespace Sys2Proof.Machine

/-- 6XNN `LD VX, NN` (R151). -/
def execLdImm (x : Reg) (nn : Byte) (s : State) : Result := .next (s.setReg x nn)

/-- 7XNN `ADD VX, NN` (R152): no flag. -/
def execAddImm (x : Reg) (nn : Byte) (s : State) : Result := .next (s.setReg x (addByte (s.reg x) nn))

/-- 8XY0 `LD VX, VY` (R153). -/
def execLdReg (x y : Reg) (s : State) : Result := .next (s.setReg x (s.reg y))

/-- 8XY1 `OR VX, VY` (R154). -/
def execOr (x y : Reg) (s : State) : Result := .next (s.setReg x (s.reg x ||| s.reg y)).afterLogic

/-- 8XY2 `AND VX, VY` (R155). -/
def execAnd (x y : Reg) (s : State) : Result := .next (s.setReg x (s.reg x &&& s.reg y)).afterLogic

/-- 8XY3 `XOR VX, VY` (R156). -/
def execXor (x y : Reg) (s : State) : Result := .next (s.setReg x (s.reg x ^^^ s.reg y)).afterLogic

/-- 8XY4 `ADD VX, VY` (R158). -/
def execAddReg (x y : Reg) (s : State) : Result :=
  let a := s.reg x
  let b := s.reg y
  .next (s.writeWithFlag x (addByte a b) (carryFlag a b))

/-- 8XY5 `SUB VX, VY` (R159). -/
def execSub (x y : Reg) (s : State) : Result :=
  let a := s.reg x
  let b := s.reg y
  .next (s.writeWithFlag x (subByte a b) (noBorrowFlag a b))

/-- 8XY6 `SHR VX` (R160). -/
def execShr (x y : Reg) (s : State) : Result :=
  let a := s.reg (shiftOperand x y)
  .next (s.writeWithFlag x (shrByte a) (shrFlag a))

/-- 8XY7 `SUBN VX, VY` (R161). -/
def execSubn (x y : Reg) (s : State) : Result :=
  let a := s.reg x
  let b := s.reg y
  .next (s.writeWithFlag x (subByte b a) (noBorrowFlag b a))

/-- 8XYE `SHL VX` (R162). -/
def execShl (x y : Reg) (s : State) : Result :=
  let a := s.reg (shiftOperand x y)
  .next (s.writeWithFlag x (shlByte a) (shlFlag a))

/-- CXNN `RND VX, NN` (R163): the tick's random byte, masked. -/
def execRnd (x : Reg) (nn : Byte) (s : State) : Result := .next (s.setReg x (s.randomByte &&& nn))

end Sys2Proof.Machine
end

