-- ==== Sys2Proof/Machine/TimersKeys.lean ====
section
/-! DEFINITION. Timer and keypad instructions (45_timers_keys.md). -/

namespace Sys2Proof.Machine

/-- FX07 `LD VX, DT` (R211). -/
def execLdVxDT (x : Reg) (s : State) : Result := .next (s.setReg x s.DT)

/-- FX15 `LD DT, VX` (R212). -/
def execLdDTVx (x : Reg) (s : State) : Result := .next (s.setDT (s.reg x))

/-- FX18 `LD ST, VX` (R213). -/
def execLdSTVx (x : Reg) (s : State) : Result := .next (s.setST (s.reg x))

/-- EX9E `SKP VX` (R214): OutOfBounds when VX > 15. -/
def execSkp (x : Reg) (s : State) : Result :=
  match digit (delta% Config.numKeys) (s.reg x) with
  | .ok k => .next (s.skipIf (s.keyDown k))
  | .error e => raise e

/-- EXA1 `SKNP VX` (R215): OutOfBounds when VX > 15. -/
def execSknp (x : Reg) (s : State) : Result :=
  match digit (delta% Config.numKeys) (s.reg x) with
  | .ok k => .next (s.skipIf (!s.keyDown k))
  | .error e => raise e

/-- FX0A `LD VX, K` (R216): with no key down pc goes back to this instruction and nothing else changes; otherwise the
lowest key that is down. -/
def execLdVxK (x : Reg) (s : State) : Result :=
  .next (match s.lowestKeyDown with
    | none => s.retreatPc
    | some k => s.setReg x (BitVec.ofNat 8 k.val))

end Sys2Proof.Machine
end

