-- ==== Sys2Proof/Machine/HostOps.lean ====
section
/-! DEFINITION. The five operations of the host (00_scope.md R5, 70_reset_and_hazards.md R265), each with the state
it leaves, failed ones included. -/

namespace Sys2Proof.Machine

/-- `construct` (R260, R261): the core is the reset state; only the host's own side goes on (log entry 9). -/
def construct (s : State) : OpResult := .ok { State.reset with host := s.host }

/-- The bytes that fit from 0x200 to the end of memory (R262). -/
def romSpace : Nat := Config.memSize - Config.loadAddr

/-- `load(bytes)` (R262): all of the ROM or, with OutOfBounds, none of it. -/
def load (bytes : List Byte) (s : State) : OpResult :=
  if bytes.length ≤ romSpace then .ok (s.storeBytes Config.loadAddr bytes) else .err .outOfBounds s

/-- `decrement_timers` (60_exceptions.md R244): each timer on its own, floored at 0. -/
def decrementTimers (s : State) : OpResult := .ok ((s.setDT (countDown s.DT)).setST (countDown s.ST))

/-- What `display` hands to the host (44_display.md R204): the grid, by value; the state is as before. -/
def display (s : State) : Display := s.disp

/-- Execute, with the state an error leaves: every check precedes every write, so it is the state after fetch
(40_execution_cycle.md R114, R116). -/
def execute (i : Instr) (s : State) : OpResult :=
  match exec i s with
  | .next t => .ok t
  | .fault e => .err e s
  | .refused r => .refused r

/-- `tick` (40_execution_cycle.md R110) on a state whose `host.input` is this tick's KEYS and RND: fetch, advance pc,
decode, execute.  After an error: fetch leaves the state as it was; decode and execute leave only the advanced pc (R116). -/
def tick (s : State) : OpResult :=
  match fetch s with
  | .error e => .err e s
  | .ok op =>
    match decodeWord op with
    | .error _ => .err .invalidOpcode s.advancePc
    | .ok i => execute i s.advancePc

/-- One call of the host; a tick takes its sample whatever it then does (log entry 7). -/
def operate (move : HostMove) (s : State) : OpResult :=
  match move with
  | .construct => construct s
  | .load bytes => load bytes s
  | .tick input => tick (s.withInput input)
  | .decrementTimers => decrementTimers s
  | .display => .ok s

/-- How a step of a run ends: an error ends the run and is never a final state (40_execution_cycle.md R117; log entry 4). -/
def OpResult.outcome : OpResult → Result
  | .ok s => .next s
  | .err e _ => .fault e
  | .refused r => .refused r

/-- The state an operation leaves, with which a host that goes on after an error calls the next one (60_exceptions.md
R235: the core treats the next call like any other). -/
def OpResult.stateLeft : OpResult → Option State
  | .ok s => some s
  | .err _ s => some s
  | .refused _ => none

/-! ### Placing one instruction where the next step fetches -/

/-- A host whose next call is a `tick`: unless one is listed first already, a `tick` with a free sample is listed before
the other calls, none of which is dropped. -/
def HostSide.tickFirst (h : HostSide) : HostSide :=
  match h.pending with
  | .tick _ :: _ => h
  | moves => { h with pending := .tick (freeInput h.draws) :: moves, draws := h.draws + 1 }

/-- Where an instruction can be fetched next: pc, or the load address when pc is at no two bytes of memory. -/
def fetchPlace (pc : Word) : Word := if inMemory (pc.toNat + 1) then pc else BitVec.ofNat _ Config.loadAddr

/-- `s` with an opcode stored where the very next step fetches it (log entry 5). -/
def State.placeWord (s : State) (op : Word) : State :=
  let at' := fetchPlace s.pc
  let t := (s.storeBytes at'.toNat [highByteOf op, lowByteOf op]).setPc at'
  { t with host := t.host.tickFirst }

end Sys2Proof.Machine
end

