-- ==== Sys2Proof/Machine/Step.lean ====
section
/-! DEFINITION. One step of the machine: one operation of the host (00_scope.md R5). -/

namespace Sys2Proof.Machine

/-- One step: the host's next call, the first that State lists or, where it lists none, a free one, so that any
interleaving of the five is a run (70_reset_and_hazards.md R265, R272; log entry 2). -/
def step (s : State) : Host.Outcome State Fault Refusal :=
  (operate s.nextMove.1 s.nextMove.2).outcome

/-- `s` with one instruction word (bit 0 the least significant bit of its 16 bits, bits from `nbits` up 0) where the
next step fetches, so that the next step runs exactly it (log entry 5). -/
def State.withFetchWord (s : State) (nbits w : Nat) : State := s.placeWord (BitVec.ofNat 16 (w % 2 ^ nbits))

end Sys2Proof.Machine
end

