-- ==== Sys2Proof/Safety.lean ====
section
/-! DEFINITION. The terms claims use: the invariant of the core, a run that stops by an error, a parked program, and
what an operation leaves unchanged. -/

namespace Sys2Proof.Machine

/-! ### The invariant -/

/-- The highest pc any operation leaves: NNN + V0 at most 0xFFF + 0xFF (10_state.md R26). -/
def maxPc : Nat := 0x10FE

/-- Every valid return address was the pc after a fetch, so at most MEM_SIZE (10_state.md R26). -/
def State.stackBounded (s : State) : Bool :=
  decide (∀ k : StackIndex, k.val < s.sp.val → s.stack[k].toNat ≤ Config.memSize)

/-- The invariant: memory keeps its canonical form inside its bounds, and pc and the valid return addresses stay below
the bounds of 10_state.md R26, so that 16-bit pc arithmetic never wraps.  (R37's ranges are the types of the fields.) -/
def State.Inv (s : State) : Prop :=
  s.mem.wf = true ∧ s.pc.toNat ≤ maxPc ∧ s.stackBounded = true

/-! ### How a run ends (70_reset_and_hazards.md R274) -/

/-- *Stopped by error*: the next step reports an error to the host. -/
def State.stopsByError (s : State) (e : Fault) : Prop := step s = .fault e

/-- *Parked*: pc = a, and mem[a], mem[a+1] hold `1NNN` with NNN = a. -/
def State.parked (s : State) : Prop :=
  ∃ nnn : Addr, s.pc = addrWord nnn ∧ s.pc.toNat + 1 < Config.memSize ∧
    wordOfBytes (s.byte s.pc.toNat) (s.byte (s.pc.toNat + 1)) = encode (.jp nnn)

/-- The next `n` steps all succeed. -/
def State.runsFor (s : State) (n : Nat) : Prop := ∃ t, Sys2Proof.core.run n s = .next t

/-! ### Frames -/

/-- One piece of the core's state (10_state.md R20), down to one register, stack entry, byte or display cell; and the
host's side. -/
inductive Part where
  | reg (i : Reg)
  | index
  | pc
  | stackEntry (k : StackIndex)
  | sp
  | delayTimer
  | soundTimer
  | byte (a : Nat)
  | cell (px : Column) (py : Row)
  | host
deriving DecidableEq, Repr

/-- The part holds the same in both states.  A byte is compared through the model's read of one byte. -/
def Part.Same (s t : State) : Part → Prop
  | .reg i => t.reg i = s.reg i
  | .index => t.I = s.I
  | .pc => t.pc = s.pc
  | .stackEntry k => t.stack[k] = s.stack[k]
  | .sp => t.sp = s.sp
  | .delayTimer => t.DT = s.DT
  | .soundTimer => t.ST = s.ST
  | .byte a => t.byte a = s.byte a
  | .cell px py => t.pixel px py = s.pixel px py
  | .host => t.host = s.host

/-- Every part that is not among the written ones holds the same in both states. -/
def FrameExcept (s t : State) (written : Part → Prop) : Prop := ∀ p : Part, ¬ written p → p.Same s t

end Sys2Proof.Machine
end

