-- ==== Sys2Proof/Certificates/Slice0/Obligations.lean ====
section
/-! DEFINITION. The statements for the provers: the numbered rules of the spec that say what an instruction, an
operation of the host or the machine does.  `exec i s` runs on the state AFTER fetch, so `s.pc` is the address of the
next instruction in every statement about `exec` (00_scope.md R13); a frame that does not list `pc` says that the
instruction adds nothing to the fetch advance. -/

namespace Sys2Proof.Claims

open Sys2Proof.Machine

/-- Every word that fits `op & mask = match` decodes to the instruction built from its fields (30_encoding.md R85). -/
def EncodedBy (mask value : Word) (build : Word → Instr) : Prop :=
  ∀ op : Word, op &&& mask = value → decodeWord op = .ok (build op)

/-- The state after fetch (40_execution_cycle.md R112): pc advanced by 2, nothing else changed. -/
def afterFetch (s : State) : State := { s with pc := s.pc + 2 }

/-- The illegal words, row by row as 30_encoding.md R96 lists them. -/
def illegalWord (op : Word) : Prop :=
  (d1 op = 0x0 ∧ op ≠ 0x00E0 ∧ op ≠ 0x00EE) ∨
  (d1 op = 0x5 ∧ d4 op ≠ 0) ∨
  (d1 op = 0x8 ∧ d4 op ∈ [0x8, 0x9, 0xA, 0xB, 0xC, 0xD, 0xF]) ∨
  (d1 op = 0x9 ∧ d4 op ≠ 0) ∨
  (d1 op = 0xE ∧ lowByte op ∉ [0x9E, 0xA1]) ∨
  (d1 op = 0xF ∧ lowByte op ∉ [0x07, 0x0A, 0x15, 0x18, 0x1E, 0x29, 0x33, 0x55, 0x65])

/-- "When exactly" an instruction raises which error (60_exceptions.md R230). -/
def raises (i : Instr) (s : State) (e : Fault) : Prop :=
  match i with
  | .sys _ => e = .invalidOpcode
  | .ret => e = .stackFault ∧ s.sp.val = 0
  | .call _ => e = .stackFault ∧ s.sp.val = 16
  | .drw _ _ n => e = .outOfBounds ∧ 1 ≤ n.val ∧ Config.memSize ≤ s.I.toNat + n.val - 1
  | .ldB _ => e = .outOfBounds ∧ Config.memSize ≤ s.I.toNat + 2
  | .ldMemVx x | .ldVxMem x => e = .outOfBounds ∧ Config.memSize ≤ s.I.toNat + x.val
  | .skp x | .sknp x | .ldF x => e = .outOfBounds ∧ 15 < (s.reg x).toNat
  | .cls | .jp _ | .seImm _ _ | .sneImm _ _ | .seReg _ _ | .ldImm _ _ | .addImm _ _ | .ldReg _ _ | .orReg _ _
  | .andReg _ _ | .xorReg _ _ | .addReg _ _ | .sub _ _ | .shr _ _ | .subn _ _ | .shl _ _ | .sneReg _ _ | .ldI _
  | .jpV0 _ | .rnd _ _ | .ldVxDT _ | .ldVxK _ | .ldDTVx _ | .ldSTVx _ | .addI _ => False

/-- The instruction raises `e`, and what it hands back is the state it was given, pc advanced and nothing else changed
(60_exceptions.md R234, 40_execution_cycle.md R116). -/
def failsUnchanged (i : Instr) (s : State) (e : Fault) : Prop :=
  exec i s = .fault e ∧ execute i s = .err e s

/-- What each instruction may write beyond the fetch advance: the column "writes" of 10_state.md R41.  The bytes that
FX33 and FX55 store to are computed by the address function the meanings use, `State.ea`. -/
def writes (i : Instr) (s : State) (p : Part) : Prop :=
  match i with
  | .cls => ∃ px py, p = .cell px py
  | .ret => p = .sp ∨ p = .pc
  | .sys _ => False
  | .jp _ | .jpV0 _ | .seImm _ _ | .sneImm _ _ | .seReg _ _ | .sneReg _ _ | .skp _ | .sknp _ => p = .pc
  | .call _ => p = .sp ∨ p = .pc ∨ ∃ k : Fin 16, k.val = s.sp.val ∧ p = .stackEntry k
  | .ldImm x _ | .addImm x _ | .ldReg x _ | .orReg x _ | .andReg x _ | .xorReg x _ | .rnd x _ | .ldVxDT x => p = .reg x
  | .addReg x _ | .sub x _ | .shr x _ | .subn x _ | .shl x _ => p = .reg x ∨ p = .reg VF
  | .ldI _ | .addI _ | .ldF _ => p = .index
  | .drw _ _ _ => p = .reg VF ∨ ∃ px py, p = .cell px py
  | .ldVxK x => p = .reg x ∨ p = .pc
  | .ldDTVx _ => p = .delayTimer
  | .ldSTVx _ => p = .soundTimer
  | .ldB _ => ∃ k < 3, p = .byte (s.ea k)
  | .ldMemVx x => ∃ k ≤ x.val, p = .byte (s.ea k)
  | .ldVxMem x => ∃ k ≤ x, p = .reg k

/-- The instructions that read KEYS (40_execution_cycle.md R111). -/
def readsKeys (i : Instr) : Prop := ∃ x, i = .skp x ∨ i = .sknp x ∨ i = .ldVxK x

/-- The instruction that reads RND (40_execution_cycle.md R111). -/
def readsRnd (i : Instr) : Prop := ∃ x nn, i = .rnd x nn

/-- Two answers of a tick that are the same but for the inputs standing in the state. -/
def sameBut (input : TickInput) (r r' : OpResult) : Prop :=
  match r, r' with
  | .ok t, .ok t' => t.withInput input = t'.withInput input
  | .err e t, .err e' t' => e = e' ∧ t.withInput input = t'.withInput input
  | .refused q, .refused q' => q = q'
  | _, _ => False

/-- The instruction that a tick of `s` executes, if its fetch and decode succeed. -/
def fetches (s : State) (i : Instr) : Prop := ∃ op, fetch s = .ok op ∧ decodeWord op = .ok i

/-- An on bit of the sprite at I lies on the cell (px, py): row k from `mem[I + k]`, column c from bit 7 - c, both
coordinates wrapping (44_display.md R202). -/
def spriteOn (s : State) (x y : Reg) (n : Fin 16) (px : Fin 64) (py : Fin 32) : Prop :=
  ∃ k < n.val, ∃ c < 8, (s.byte (s.ea k)).getLsbD (7 - c) = true ∧
    px.val = ((s.reg x).toNat % 64 + c) % 64 ∧ py.val = ((s.reg y).toNat % 32 + k) % 32

/-- The value pc has, as an unbounded integer, after a tick of `s` that executed the instruction: the writes of pc that
10_state.md R26 lists, each without a wrap.  A return goes to an address on the stack, which is at most MEM_SIZE. -/
def pcAfter (i : Instr) (s : State) (pc : Nat) : Prop :=
  match i with
  | .jp nnn | .call nnn => pc = nnn.toNat
  | .jpV0 nnn => pc = nnn.toNat + (s.reg 0).toNat
  | .ret => ∃ k : StackIndex, k.val + 1 = s.sp.val ∧ pc = s.stack[k].toNat ∧ pc ≤ Config.memSize
  | .seImm _ _ | .sneImm _ _ | .seReg _ _ | .sneReg _ _ | .skp _ | .sknp _ => pc = s.pc.toNat + 2 ∨ pc = s.pc.toNat + 4
  | .ldVxK _ => pc = s.pc.toNat + 2 ∨ pc = s.pc.toNat + 2 - 2
  | .sys _ => False
  | .cls | .ldImm _ _ | .addImm _ _ | .ldReg _ _ | .orReg _ _ | .andReg _ _ | .xorReg _ _ | .addReg _ _ | .sub _ _
  | .shr _ _ | .subn _ _ | .shl _ _ | .ldI _ | .rnd _ _ | .drw _ _ _ | .ldVxDT _ | .ldDTVx _ | .ldSTVx _ | .addI _
  | .ldF _ | .ldB _ | .ldMemVx _ | .ldVxMem _ => pc = s.pc.toNat + 2

/-- The core's state is the reset state of 10_state.md R40. -/
def isResetCore (t : State) : Prop :=
  (∀ a < 80, t.byte a = Config.font.getD a 0) ∧ (∀ a, 80 ≤ a → a < Config.memSize → t.byte a = 0) ∧ (∀ j, t.reg j = 0) ∧ t.I = 0 ∧
  t.pc = 0x200 ∧ t.sp = 0 ∧ (∀ k : Fin 16, t.stack[k] = 0) ∧ t.DT = 0 ∧ t.ST = 0 ∧ ∀ px py, t.pixel px py = false

/-- The two bytes at `a` hold the opcode of `i`, high byte first (20_memory.md R51). -/
def holds (s : State) (a : Nat) (i : Instr) : Prop :=
  a + 1 < Config.memSize ∧ wordOfBytes (s.byte a) (s.byte (a + 1)) = encode i

end Sys2Proof.Claims

open Sys2Proof Sys2Proof.Machine Sys2Proof.Claims

/-! ### Encoding -/

/-- Decoding the word of a well-formed instruction gives the instruction, every operand at every value. -/
def Obligations.DecodeOfEncodeIsTheInstruction : Prop :=
  ∀ i : Instr, i.wellFormed = true → decodeWord (encode i) = .ok i ∧ decode (encodeBytes i) = .ok (i, [])

/-- Each word has one meaning: what it decodes to is well-formed and encodes to that word. -/
def Obligations.EncodeOfDecodeIsTheWord : Prop :=
  ∀ (op : Word) (i : Instr), decodeWord op = .ok i → i.wellFormed = true ∧ encode i = op

/-- The nibble decoder of R86 and the first-match reading of the 35-row table of R85 are the same function.  (The spec
marks R86 as derived from R85.) -/
def Obligations.DecoderIsFirstMatchInTheOpcodeTable : Prop :=
  opcodeTable.length = 35 ∧
  ∀ op : Word,
    (∀ r, opcodeTable.find? (fun r => r.fits op) = some r → decodeWord op = .ok (r.build op)) ∧
    (opcodeTable.find? (fun r => r.fits op) = none → ∃ d, decodeWord op = .error d)

/-- R96's list of illegal words is exactly the words that stand for no executable instruction, and a tick that fetches
one reports InvalidOpcode. -/
def Obligations.IllegalWordsRaiseInvalidOpcode : Prop :=
  (∀ op : Word, illegalWord op ↔ ¬∃ i, decodeWord op = .ok i ∧ ∀ nnn, i ≠ .sys nnn) ∧
  (∀ (s : State) (op : Word), fetch s = .ok op → illegalWord op → tick s = .err .invalidOpcode (afterFetch s))

/-- Words written out from the spec's encodings, one or more from each family: 30_encoding.md section 6, and EFA1 from
95_test_vectors.md V-DEC. -/
def Obligations.SpecWordsDecodeAsTheSpecSays : Prop :=
  decodeWord 0x600A = .ok (.ldImm 0 0x0A) ∧ decodeWord 0x7005 = .ok (.addImm 0 0x05) ∧
  decodeWord 0xA200 = .ok (.ldI 0x200) ∧ decodeWord 0x00E0 = .ok .cls ∧ decodeWord 0xD125 = .ok (.drw 1 2 5) ∧
  decodeWord 0x8AB4 = .ok (.addReg 0xA 0xB) ∧ decodeWord 0xF365 = .ok (.ldVxMem 3) ∧ decodeWord 0x0000 = .ok (.sys 0) ∧
  decodeWord 0xEFA1 = .ok (.sknp 15) ∧ decodeWord 0x8AB8 = .error (.illegal8 8) ∧
  decodeWord 0xE09F = .error (.illegalE 0x9F) ∧ decodeWord 0x5121 = .error (.illegal5 1)

/-- R83: the immediates are the opcode's bits, unsigned; with them the register fields (R84). -/
def Obligations.FieldsAreTheOpcodeBits : Prop :=
  ∀ op : Word,
    (fieldNNN op).toNat = (op.extractLsb 11 0).toNat ∧ (fieldNN op).toNat = (op.extractLsb 7 0).toNat ∧
    (fieldN op).val = (op.extractLsb 3 0).toNat ∧ (fieldX op).val = (op.extractLsb 11 8).toNat ∧
    (fieldY op).val = (op.extractLsb 7 4).toNat ∧ (addrWord (fieldNNN op)).toNat = (fieldNNN op).toNat

/-! ### The tick -/

/-- A step on whose turn the host calls `tick` runs the instruction that the two bytes at pc decode to, on the state
with that tick's inputs in place and pc advanced by 2.  (That the step takes the host's next call from `host.pending`,
and a free call when none is listed, is the model's form: log entries 1 and 2.) -/
def Obligations.StepRunsTheInstructionAtPc : Prop :=
  ∀ (s s' : State) (input : TickInput) (i : Instr),
    s.nextMove = (.tick input, s') → s.pc.toNat + 1 < Config.memSize →
    decodeWord (wordOfBytes (s.byte s.pc.toNat) (s.byte (s.pc.toNat + 1))) = .ok i →
    step s = exec i (afterFetch (s'.withInput input))

/-- A call that stands first in `host.pending` is what the next step performs, and with none listed the next step performs
a free call, any of the five (R265; R272: any interleaving is a legal run).  The model's choice of form: log entry 2. -/
def Obligations.StepPerformsTheNextHostCall : Prop :=
  (∀ (s : State) (move : HostMove) (rest : List HostMove), s.host.pending = move :: rest →
    step s = (operate move { s with host := { s.host with pending := rest } }).outcome) ∧
  (∀ s : State, s.host.pending = [] →
    step s = (operate (freeMove s.host.draws) { s with host := { s.host with draws := s.host.draws + 1 } }).outcome)

/-- R112: fetch checks both bytes before pc moves, composes them big-endian, and advances pc by 2. -/
def Obligations.FetchChecksBothBytesThenAdvancesPc : Prop :=
  ∀ s : State,
    (Config.memSize ≤ s.pc.toNat + 1 → tick s = .err .outOfBounds s) ∧
    (s.pc.toNat + 1 < Config.memSize → ∃ op : Word,
      op.toNat = (s.byte s.pc.toNat).toNat * 256 + (s.byte (s.pc.toNat + 1)).toNat ∧ fetch s = .ok op ∧
      (∀ i, decodeWord op = .ok i → tick s = execute i (afterFetch s)) ∧
      (∀ d, decodeWord op = .error d → tick s = .err .invalidOpcode (afterFetch s))) ∧
    ((∃ op, fetch s = .ok op) ↔ s.pc.toNat ≤ 0xFFD)

/-- R116: the state a failed tick leaves, by the place where the error arises (the spec's decision D4). -/
def Obligations.FailedTickLeavesTheStateOfR116 : Prop :=
  ∀ (s t : State) (e : Fault), tick s = .err e t →
    ((∀ op, fetch s ≠ .ok op) ∧ e = .outOfBounds ∧ t = s) ∨
    (∃ op, fetch s = .ok op ∧ illegalWord op ∧ e = .invalidOpcode ∧ t = afterFetch s) ∨
    (∃ op, fetch s = .ok op ∧ ¬illegalWord op ∧ (e = .stackFault ∨ e = .outOfBounds) ∧ t = afterFetch s)

/-- R230: the three error kinds, each raised exactly when the table says, by instructions, fetch and `load`; and the
other operations cannot fail. -/
def Obligations.ErrorsAreRaisedExactlyWhenR230Says : Prop :=
  (∀ (i : Instr) (s : State) (e : Fault), exec i s = .fault e ↔ raises i s e) ∧
  (∀ (i : Instr) (s : State) (r : Refusal), exec i s ≠ .refused r) ∧
  (∀ (s : State) (e : Fault), fetch s = .error e ↔ e = .outOfBounds ∧ Config.memSize ≤ s.pc.toNat + 1) ∧
  (∀ (s : State) (op : Word), fetch s = .ok op → (illegalWord op ↔ ∃ t, tick s = .err .invalidOpcode t)) ∧
  (∀ (bytes : List Byte) (s : State) (e : Fault),
    (∃ t, load bytes s = .err e t) ↔ e = .outOfBounds ∧ Config.memSize - 0x200 < bytes.length) ∧
  (∀ s : State, (∃ t, construct s = .ok t) ∧ (∃ t, decrementTimers s = .ok t) ∧ operate .display s = .ok s)

/-- R111: a tick depends on KEYS only through EX9E, EXA1 and FX0A and on RND only through CXNN, and it writes DT and ST
only by executing FX15 and FX18. -/
def Obligations.OnlyKeyAndRandomInstructionsReadInputs : Prop :=
  (∀ (s : State) (a b : TickInput),
    (∀ i, fetches s i → (readsKeys i → a.keys = b.keys) ∧ (readsRnd i → a.rnd = b.rnd)) →
    sameBut a (tick (s.withInput a)) (tick (s.withInput b))) ∧
  (∀ s t : State, (tick s).stateLeft = some t →
    ((∀ x, ¬fetches s (.ldDTVx x)) → t.DT = s.DT) ∧ ((∀ x, ¬fetches s (.ldSTVx x)) → t.ST = s.ST))

/-- The frame of all 35 instructions: what the table R41 does not list as written is as before.  (The spec marks R41 as
derived from the instruction rules.) -/
def Obligations.EveryInstructionChangesOnlyWhatItWrites : Prop :=
  ∀ (i : Instr) (s t : State), exec i s = .next t → FrameExcept s t (writes i s)

/-! ### Control flow (41_control_flow.md) -/

/-- R131: SYS always raises InvalidOpcode and leaves pc advanced by 2, nothing else changed (the spec's decision D6). -/
def Obligations.SysRaisesInvalidOpcode : Prop :=
  (∀ op : Word, op &&& 0xF000 = 0x0000 → op ≠ 0x00E0 → op ≠ 0x00EE → decodeWord op = .ok (.sys (fieldNNN op))) ∧
  (∀ (nnn : Addr) (s : State), exec (.sys nnn) s = .fault .invalidOpcode) ∧
  (∀ (op : Word) (nnn : Addr) (s : State), fetch s = .ok op → decodeWord op = .ok (.sys nnn) →
    tick s = .err .invalidOpcode (afterFetch s))

/-- R132: RET pops the latest return address into pc, or raises StackFault on an empty stack. -/
def Obligations.RetPopsTheReturnAddress : Prop :=
  decodeWord 0x00EE = .ok .ret ∧
  ∀ s : State,
    (s.sp.val = 0 → failsUnchanged .ret s .stackFault) ∧
    (0 < s.sp.val → ∃ t, exec .ret s = .next t ∧ t.sp.val = s.sp.val - 1 ∧
      (∀ k : Fin 16, k.val = s.sp.val - 1 → t.pc = s.stack[k]) ∧ FrameExcept s t (fun p => p = .sp ∨ p = .pc))

/-- R133: JP sets pc to NNN for every NNN, and nothing else changes. -/
def Obligations.JumpSetsPcToNNN : Prop :=
  EncodedBy 0xF000 0x1000 (fun op => .jp (fieldNNN op)) ∧
  ∀ (nnn : Addr) (s : State), ∃ t, exec (.jp nnn) s = .next t ∧ t.pc.toNat = nnn.toNat ∧
    FrameExcept s t (fun p => p = .pc)

/-- R134: CALL pushes the advanced pc and jumps, or raises StackFault when sixteen addresses are on the stack. -/
def Obligations.CallPushesPcAndJumps : Prop :=
  EncodedBy 0xF000 0x2000 (fun op => .call (fieldNNN op)) ∧
  ∀ (nnn : Addr) (s : State),
    (s.sp.val = 16 → failsUnchanged (.call nnn) s .stackFault) ∧
    (s.sp.val < 16 → ∃ t, exec (.call nnn) s = .next t ∧ t.pc.toNat = nnn.toNat ∧ t.sp.val = s.sp.val + 1 ∧
      (∀ k : Fin 16, k.val = s.sp.val → t.stack[k] = s.pc) ∧
      FrameExcept s t (fun p => p = .sp ∨ p = .pc ∨ ∃ k : Fin 16, k.val = s.sp.val ∧ p = .stackEntry k))

/-- R135: BNNN sets pc to NNN + V0, not reduced to 12 bits (the spec's decision D8). -/
def Obligations.JumpWithOffsetAddsV0 : Prop :=
  EncodedBy 0xF000 0xB000 (fun op => .jpV0 (fieldNNN op)) ∧
  ∀ (nnn : Addr) (s : State), ∃ t, exec (.jpV0 nnn) s = .next t ∧ t.pc.toNat = nnn.toNat + (s.reg 0).toNat ∧
    FrameExcept s t (fun p => p = .pc)

/-- R136: 3XNN skips iff VX = NN. -/
def Obligations.SkipIfEqualImmediate : Prop :=
  EncodedBy 0xF000 0x3000 (fun op => .seImm (fieldX op) (fieldNN op)) ∧
  ∀ (x : Reg) (nn : Byte) (s : State), ∃ t, exec (.seImm x nn) s = .next t ∧
    (s.reg x = nn → t.pc = s.pc + 2) ∧ (s.reg x ≠ nn → t.pc = s.pc) ∧ FrameExcept s t (fun p => p = .pc)

/-- R137: 4XNN skips iff VX differs from NN. -/
def Obligations.SkipIfNotEqualImmediate : Prop :=
  EncodedBy 0xF000 0x4000 (fun op => .sneImm (fieldX op) (fieldNN op)) ∧
  ∀ (x : Reg) (nn : Byte) (s : State), ∃ t, exec (.sneImm x nn) s = .next t ∧
    (s.reg x ≠ nn → t.pc = s.pc + 2) ∧ (s.reg x = nn → t.pc = s.pc) ∧ FrameExcept s t (fun p => p = .pc)

/-- R138: 5XY0 skips iff VX = VY. -/
def Obligations.SkipIfRegistersEqual : Prop :=
  EncodedBy 0xF00F 0x5000 (fun op => .seReg (fieldX op) (fieldY op)) ∧
  (∀ op : Word, d1 op = 5 → d4 op ≠ 0 → ∃ d, decodeWord op = .error d) ∧
  ∀ (x y : Reg) (s : State), ∃ t, exec (.seReg x y) s = .next t ∧
    (s.reg x = s.reg y → t.pc = s.pc + 2) ∧ (s.reg x ≠ s.reg y → t.pc = s.pc) ∧ FrameExcept s t (fun p => p = .pc)

/-- R139: 9XY0 skips iff VX differs from VY. -/
def Obligations.SkipIfRegistersDiffer : Prop :=
  EncodedBy 0xF00F 0x9000 (fun op => .sneReg (fieldX op) (fieldY op)) ∧
  (∀ op : Word, d1 op = 9 → d4 op ≠ 0 → ∃ d, decodeWord op = .error d) ∧
  ∀ (x y : Reg) (s : State), ∃ t, exec (.sneReg x y) s = .next t ∧
    (s.reg x ≠ s.reg y → t.pc = s.pc + 2) ∧ (s.reg x = s.reg y → t.pc = s.pc) ∧ FrameExcept s t (fun p => p = .pc)

/-- A CALL at pc and a RET at its target, one tick each: pc is the address after the CALL, sp is as before, and only
pc, the stale stack entry and the tick's inputs differ.  (The spec marks R141 as derived from R132 and R134.) -/
def Obligations.CallThenRetComesBack : Prop :=
  ∀ (s : State) (nnn : Addr) (input : TickInput),
    s.sp.val < 16 → holds s s.pc.toNat (.call nnn) → holds s nnn.toNat .ret →
    ∃ t u, tick s = .ok t ∧ tick (t.withInput input) = .ok u ∧ u.pc = s.pc + 2 ∧
      FrameExcept s u (fun p => p = .pc ∨ p = .host ∨ ∃ k : Fin 16, k.val = s.sp.val ∧ p = .stackEntry k)

/-! ### Load, arithmetic, logic, shift, random (42_load_alu.md) -/

/-- R151: 6XNN. -/
def Obligations.LoadImmediateSetsVX : Prop :=
  EncodedBy 0xF000 0x6000 (fun op => .ldImm (fieldX op) (fieldNN op)) ∧
  ∀ (x : Reg) (nn : Byte) (s : State), ∃ t, exec (.ldImm x nn) s = .next t ∧ t.reg x = nn ∧
    FrameExcept s t (fun p => p = .reg x)

/-- R152: 7XNN wraps modulo 256 and sets no flag. -/
def Obligations.AddImmediateWrapsWithoutFlag : Prop :=
  EncodedBy 0xF000 0x7000 (fun op => .addImm (fieldX op) (fieldNN op)) ∧
  ∀ (x : Reg) (nn : Byte) (s : State), ∃ t, exec (.addImm x nn) s = .next t ∧
    (t.reg x).toNat = ((s.reg x).toNat + nn.toNat) % 256 ∧ FrameExcept s t (fun p => p = .reg x)

/-- R153: 8XY0. -/
def Obligations.LoadRegisterCopiesVY : Prop :=
  EncodedBy 0xF00F 0x8000 (fun op => .ldReg (fieldX op) (fieldY op)) ∧
  ∀ (x y : Reg) (s : State), ∃ t, exec (.ldReg x y) s = .next t ∧ t.reg x = s.reg y ∧
    FrameExcept s t (fun p => p = .reg x)

/-- R154: 8XY1, bit by bit; VF is not written as a flag (the spec's decision D10). -/
def Obligations.OrIsBitwiseAndSetsNoFlag : Prop :=
  EncodedBy 0xF00F 0x8001 (fun op => .orReg (fieldX op) (fieldY op)) ∧
  ∀ (x y : Reg) (s : State), ∃ t, exec (.orReg x y) s = .next t ∧
    (∀ b, (t.reg x).getLsbD b = ((s.reg x).getLsbD b || (s.reg y).getLsbD b)) ∧ FrameExcept s t (fun p => p = .reg x)

/-- R155: 8XY2, bit by bit; VF is not written as a flag (the spec's decision D10). -/
def Obligations.AndIsBitwiseAndSetsNoFlag : Prop :=
  EncodedBy 0xF00F 0x8002 (fun op => .andReg (fieldX op) (fieldY op)) ∧
  ∀ (x y : Reg) (s : State), ∃ t, exec (.andReg x y) s = .next t ∧
    (∀ b, (t.reg x).getLsbD b = ((s.reg x).getLsbD b && (s.reg y).getLsbD b)) ∧ FrameExcept s t (fun p => p = .reg x)

/-- R156: 8XY3, bit by bit; VF is not written as a flag (the spec's decision D10). -/
def Obligations.XorIsBitwiseAndSetsNoFlag : Prop :=
  EncodedBy 0xF00F 0x8003 (fun op => .xorReg (fieldX op) (fieldY op)) ∧
  ∀ (x y : Reg) (s : State), ∃ t, exec (.xorReg x y) s = .next t ∧
    (∀ b, (t.reg x).getLsbD b = ((s.reg x).getLsbD b ^^ (s.reg y).getLsbD b)) ∧ FrameExcept s t (fun p => p = .reg x)

/-- R158: 8XY4 wraps modulo 256 and sets VF to the carry, which wins when X = 15. -/
def Obligations.AddRegistersSetsCarry : Prop :=
  EncodedBy 0xF00F 0x8004 (fun op => .addReg (fieldX op) (fieldY op)) ∧
  ∀ (x y : Reg) (s : State), ∃ t, exec (.addReg x y) s = .next t ∧
    (x ≠ VF → (t.reg x).toNat = ((s.reg x).toNat + (s.reg y).toNat) % 256) ∧
    (t.reg VF).toNat = (if 256 ≤ (s.reg x).toNat + (s.reg y).toNat then 1 else 0) ∧
    FrameExcept s t (fun p => p = .reg x ∨ p = .reg VF)

/-- R159: 8XY5; VF is 1 for no borrow and wins when X = 15 (the spec's decision D27). -/
def Obligations.SubRegistersSetsNoBorrow : Prop :=
  EncodedBy 0xF00F 0x8005 (fun op => .sub (fieldX op) (fieldY op)) ∧
  ∀ (x y : Reg) (s : State), ∃ t, exec (.sub x y) s = .next t ∧
    (x ≠ VF → ((t.reg x).toNat : Int) = ((s.reg x).toNat - (s.reg y).toNat : Int) % 256) ∧
    (t.reg VF).toNat = (if (s.reg y).toNat ≤ (s.reg x).toNat then 1 else 0) ∧
    FrameExcept s t (fun p => p = .reg x ∨ p = .reg VF)

/-- R160: 8XY6 shifts VX, whatever Y; VF is the bit shifted out (the spec's decisions D7, D27). -/
def Obligations.ShiftRightMovesBitZeroToVF : Prop :=
  EncodedBy 0xF00F 0x8006 (fun op => .shr (fieldX op) (fieldY op)) ∧
  ∀ (x y : Reg) (s : State), ∃ t, exec (.shr x y) s = .next t ∧
    (x ≠ VF → (t.reg x).toNat = (s.reg x).toNat / 2) ∧ (t.reg VF).toNat = (s.reg x).toNat % 2 ∧
    FrameExcept s t (fun p => p = .reg x ∨ p = .reg VF)

/-- R161: 8XY7; VF is 1 for no borrow and wins when X = 15 (the spec's decision D27). -/
def Obligations.SubnRegistersSetsNoBorrow : Prop :=
  EncodedBy 0xF00F 0x8007 (fun op => .subn (fieldX op) (fieldY op)) ∧
  ∀ (x y : Reg) (s : State), ∃ t, exec (.subn x y) s = .next t ∧
    (x ≠ VF → ((t.reg x).toNat : Int) = ((s.reg y).toNat - (s.reg x).toNat : Int) % 256) ∧
    (t.reg VF).toNat = (if (s.reg x).toNat ≤ (s.reg y).toNat then 1 else 0) ∧
    FrameExcept s t (fun p => p = .reg x ∨ p = .reg VF)

/-- R162: 8XYE shifts VX, whatever Y; VF is the bit shifted out (the spec's decisions D7, D27). -/
def Obligations.ShiftLeftMovesBitSevenToVF : Prop :=
  EncodedBy 0xF00F 0x800E (fun op => .shl (fieldX op) (fieldY op)) ∧
  ∀ (x y : Reg) (s : State), ∃ t, exec (.shl x y) s = .next t ∧
    (x ≠ VF → (t.reg x).toNat = (s.reg x).toNat * 2 % 256) ∧ (t.reg VF).toNat = (s.reg x).toNat / 128 ∧
    FrameExcept s t (fun p => p = .reg x ∨ p = .reg VF)

/-- R163: CXNN masks the tick's random byte, whatever that byte is (the spec's decision D16). -/
def Obligations.RandomByteIsMaskedWithNN : Prop :=
  EncodedBy 0xF000 0xC000 (fun op => .rnd (fieldX op) (fieldNN op)) ∧
  ∀ (x : Reg) (nn : Byte) (s : State) (input : TickInput), ∃ t,
    exec (.rnd x nn) (s.withInput input) = .next t ∧
    (∀ b, (t.reg x).getLsbD b = (input.rnd.getLsbD b && nn.getLsbD b)) ∧
    FrameExcept (s.withInput input) t (fun p => p = .reg x)

/-! ### Index and memory (43_index_memory.md) -/

/-- R181: ANNN, zero-extended. -/
def Obligations.LoadIndexSetsI : Prop :=
  EncodedBy 0xF000 0xA000 (fun op => .ldI (fieldNNN op)) ∧
  ∀ (nnn : Addr) (s : State), ∃ t, exec (.ldI nnn) s = .next t ∧ t.I.toNat = nnn.toNat ∧
    FrameExcept s t (fun p => p = .index)

/-- R182: FX1E wraps at 16 bits and writes no flag (the spec's decision D12). -/
def Obligations.AddIndexWrapsAtSixteenBits : Prop :=
  EncodedBy 0xF0FF 0xF01E (fun op => .addI (fieldX op)) ∧
  ∀ (x : Reg) (s : State), ∃ t, exec (.addI x) s = .next t ∧
    t.I.toNat = (s.I.toNat + (s.reg x).toNat) % 65536 ∧ FrameExcept s t (fun p => p = .index)

/-- R183: FX29 points I at the glyph of a digit 0..15 and raises OutOfBounds above (the spec's decision D15). -/
def Obligations.LoadFontPointsIAtTheGlyph : Prop :=
  EncodedBy 0xF0FF 0xF029 (fun op => .ldF (fieldX op)) ∧
  ∀ (x : Reg) (s : State),
    (15 < (s.reg x).toNat → failsUnchanged (.ldF x) s .outOfBounds) ∧
    ((s.reg x).toNat ≤ 15 → ∃ t, exec (.ldF x) s = .next t ∧ t.I.toNat = 5 * (s.reg x).toNat ∧
      FrameExcept s t (fun p => p = .index))

/-- R184 and R185: FX33 stores hundreds, tens and ones of VX at I, I+1, I+2, or nothing when one lies outside memory
(the spec's decision D28). -/
def Obligations.StoreBcdWritesThreeDigits : Prop :=
  EncodedBy 0xF0FF 0xF033 (fun op => .ldB (fieldX op)) ∧
  (∀ v : Nat, v < 256 → v = 100 * (v / 100) + 10 * (v / 10 % 10) + v % 10 ∧ v / 100 ≤ 2) ∧
  ∀ (x : Reg) (s : State),
    (Config.memSize ≤ s.I.toNat + 2 → failsUnchanged (.ldB x) s .outOfBounds) ∧
    (s.I.toNat + 2 < Config.memSize → ∃ t, exec (.ldB x) s = .next t ∧
      (t.byte (s.ea 0)).toNat = (s.reg x).toNat / 100 ∧ (t.byte (s.ea 1)).toNat = (s.reg x).toNat / 10 % 10 ∧
      (t.byte (s.ea 2)).toNat = (s.reg x).toNat % 10 ∧ FrameExcept s t (fun p => ∃ k < 3, p = .byte (s.ea k)))

/-- R186: FX55 stores V0..VX at I..I+X, I unchanged, or nothing when a byte lies outside memory (the spec's decision D9). -/
def Obligations.RegisterDumpStoresV0ToVX : Prop :=
  EncodedBy 0xF0FF 0xF055 (fun op => .ldMemVx (fieldX op)) ∧
  ∀ (x : Reg) (s : State),
    (Config.memSize ≤ s.I.toNat + x.val → failsUnchanged (.ldMemVx x) s .outOfBounds) ∧
    (s.I.toNat + x.val < Config.memSize → ∃ t, exec (.ldMemVx x) s = .next t ∧
      (∀ k : Reg, k ≤ x → t.byte (s.ea k.val) = s.reg k) ∧
      FrameExcept s t (fun p => ∃ k ≤ x.val, p = .byte (s.ea k)))

/-- R187: FX65 loads V0..VX from I..I+X, I unchanged, or nothing when a byte lies outside memory (the spec's decision D9). -/
def Obligations.RegisterLoadReadsV0ToVX : Prop :=
  EncodedBy 0xF0FF 0xF065 (fun op => .ldVxMem (fieldX op)) ∧
  ∀ (x : Reg) (s : State),
    (Config.memSize ≤ s.I.toNat + x.val → failsUnchanged (.ldVxMem x) s .outOfBounds) ∧
    (s.I.toNat + x.val < Config.memSize → ∃ t, exec (.ldVxMem x) s = .next t ∧
      (∀ k : Reg, k ≤ x → t.reg k = s.byte (s.ea k.val)) ∧ FrameExcept s t (fun p => ∃ k ≤ x, p = .reg k))

/-- A dump followed by a load gives the registers back, and a BCD store followed by F265 leaves the digits in V0..V2.
(The spec marks R188 as derived from R185, R186 and R187.) -/
def Obligations.StoreThenLoadGivesTheValuesBack : Prop :=
  (∀ (x : Reg) (s : State), s.I.toNat + x.val < Config.memSize →
    ∃ t u, exec (.ldMemVx x) s = .next t ∧ exec (.ldVxMem x) t = .next u ∧ ∀ j, u.reg j = s.reg j) ∧
  (∀ (x : Reg) (s : State), s.I.toNat + 2 < Config.memSize →
    ∃ t u, exec (.ldB x) s = .next t ∧ exec (.ldVxMem 2) t = .next u ∧
      (u.reg 0).toNat = (s.reg x).toNat / 100 ∧ (u.reg 1).toNat = (s.reg x).toNat / 10 % 10 ∧
      (u.reg 2).toNat = (s.reg x).toNat % 10)

/-- A dump over the instruction stream is what the next fetch there reads.  (The spec marks R63 as derived.) -/
def Obligations.DumpedBytesAreFetchedNext : Prop :=
  ∀ (x k k' : Reg) (s t u : State), k'.val = k.val + 1 → k' ≤ x → exec (.ldMemVx x) s = .next t →
    u.mem = t.mem → u.pc.toNat = s.ea k.val → fetch u = .ok (wordOfBytes (s.reg k) (s.reg k'))

/-! ### Display (44_display.md) -/

/-- R201: CLS turns every cell off and touches nothing else. -/
def Obligations.ClearScreenTurnsEveryCellOff : Prop :=
  decodeWord 0x00E0 = .ok .cls ∧
  ∀ s : State, ∃ t, exec .cls s = .next t ∧ (∀ px py, t.pixel px py = false) ∧
    FrameExcept s t (fun p => ∃ px py, p = .cell px py)

/-- R202: DRW flips exactly the cells under the sprite's on bits, wrapping at both edges, and VF says whether one of
them was on; a sprite that leaves memory raises OutOfBounds, and with N = 0 nothing is checked. -/
def Obligations.DrawXorsTheSpriteAndReportsCollision : Prop :=
  EncodedBy 0xF000 0xD000 (fun op => .drw (fieldX op) (fieldY op) (fieldN op)) ∧
  ∀ (x y : Reg) (n : Fin 16) (s : State),
    (1 ≤ n.val → Config.memSize ≤ s.I.toNat + n.val - 1 → failsUnchanged (.drw x y n) s .outOfBounds) ∧
    ((n.val = 0 ∨ s.I.toNat + n.val - 1 < Config.memSize) → ∃ t, exec (.drw x y n) s = .next t ∧
      (∀ px py, spriteOn s x y n px py → t.pixel px py = !s.pixel px py) ∧
      (∀ px py, ¬spriteOn s x y n px py → t.pixel px py = s.pixel px py) ∧
      ((∃ px py, spriteOn s x y n px py ∧ s.pixel px py = true) → t.reg VF = 1) ∧
      ((¬∃ px py, spriteOn s x y n px py ∧ s.pixel px py = true) → t.reg VF = 0) ∧
      FrameExcept s t (fun p => p = .reg VF ∨ ∃ px py, p = .cell px py))

/-- Drawing the same sprite twice restores the grid, and VF then says whether an on bit covered a cell that was off.
(The spec marks R203 as derived from R202.) -/
def Obligations.DrawingTwiceRestoresTheDisplay : Prop :=
  ∀ (x y : Reg) (n : Fin 16) (s t : State),
    exec (.drw x y n) s = .next t → t.reg x = s.reg x → t.reg y = s.reg y →
    ∃ u, exec (.drw x y n) t = .next u ∧ (∀ px py, u.pixel px py = s.pixel px py) ∧
      (u.reg VF = 1 ↔ ∃ px py, spriteOn s x y n px py ∧ s.pixel px py = false) ∧ (u.reg VF = 0 ∨ u.reg VF = 1)

/-- R204: `display` returns the grid, cannot fail, and changes nothing. -/
def Obligations.DisplayReturnsTheGridUnchanged : Prop :=
  ∀ s : State, (∀ px py, (display s).get px py = s.pixel px py) ∧ operate .display s = .ok s

/-! ### Timers and keys (45_timers_keys.md) -/

/-- R211: FX07. -/
def Obligations.LoadVXReadsTheDelayTimer : Prop :=
  EncodedBy 0xF0FF 0xF007 (fun op => .ldVxDT (fieldX op)) ∧
  ∀ (x : Reg) (s : State), ∃ t, exec (.ldVxDT x) s = .next t ∧ t.reg x = s.DT ∧ FrameExcept s t (fun p => p = .reg x)

/-- R212: FX15. -/
def Obligations.LoadDelayTimerFromVX : Prop :=
  EncodedBy 0xF0FF 0xF015 (fun op => .ldDTVx (fieldX op)) ∧
  ∀ (x : Reg) (s : State), ∃ t, exec (.ldDTVx x) s = .next t ∧ t.DT = s.reg x ∧
    FrameExcept s t (fun p => p = .delayTimer)

/-- R213: FX18. -/
def Obligations.LoadSoundTimerFromVX : Prop :=
  EncodedBy 0xF0FF 0xF018 (fun op => .ldSTVx (fieldX op)) ∧
  ∀ (x : Reg) (s : State), ∃ t, exec (.ldSTVx x) s = .next t ∧ t.ST = s.reg x ∧
    FrameExcept s t (fun p => p = .soundTimer)

/-- R214: EX9E skips iff the key numbered VX is down in the tick's sample; a number above 15 raises OutOfBounds (the
spec's decisions D13, D15). -/
def Obligations.SkipIfKeyDown : Prop :=
  EncodedBy 0xF0FF 0xE09E (fun op => .skp (fieldX op)) ∧
  ∀ (x : Reg) (s : State),
    (15 < (s.reg x).toNat → failsUnchanged (.skp x) s .outOfBounds) ∧
    (∀ k : Fin 16, (s.reg x).toNat = k.val → ∃ t, exec (.skp x) s = .next t ∧
      (s.host.input.keys[k] = true → t.pc = s.pc + 2) ∧ (s.host.input.keys[k] = false → t.pc = s.pc) ∧
      FrameExcept s t (fun p => p = .pc))

/-- R215: EXA1 skips iff the key numbered VX is not down; a number above 15 raises OutOfBounds (the spec's decisions
D13, D15). -/
def Obligations.SkipIfKeyNotDown : Prop :=
  EncodedBy 0xF0FF 0xE0A1 (fun op => .sknp (fieldX op)) ∧
  ∀ (x : Reg) (s : State),
    (15 < (s.reg x).toNat → failsUnchanged (.sknp x) s .outOfBounds) ∧
    (∀ k : Fin 16, (s.reg x).toNat = k.val → ∃ t, exec (.sknp x) s = .next t ∧
      (s.host.input.keys[k] = false → t.pc = s.pc + 2) ∧ (s.host.input.keys[k] = true → t.pc = s.pc) ∧
      FrameExcept s t (fun p => p = .pc))

/-- R216: FX0A takes the lowest key that is down; with none down the whole tick changes nothing (the spec's decision
D14). -/
def Obligations.LoadKeyTakesTheLowestOrWaits : Prop :=
  EncodedBy 0xF0FF 0xF00A (fun op => .ldVxK (fieldX op)) ∧
  (∀ (x : Reg) (s : State),
    ((∀ k : Fin 16, s.host.input.keys[k] = false) → ∃ t, exec (.ldVxK x) s = .next t ∧ t.pc = s.pc - 2 ∧
      FrameExcept s t (fun p => p = .pc)) ∧
    (∀ k : Fin 16, s.host.input.keys[k] = true → (∀ j : Fin 16, j < k → s.host.input.keys[j] = false) →
      ∃ t, exec (.ldVxK x) s = .next t ∧ (t.reg x).toNat = k.val ∧ FrameExcept s t (fun p => p = .reg x))) ∧
  (∀ (op : Word) (x : Reg) (s : State), fetch s = .ok op → decodeWord op = .ok (.ldVxK x) →
    (∀ k : Fin 16, s.host.input.keys[k] = false) → tick s = .ok s)

/-! ### The host's operations, reset, the invariant -/

/-- R244: each timer goes down by 1 and stays at 0, and nothing else changes. -/
def Obligations.DecrementTimersFloorsAtZero : Prop :=
  ∀ s : State, ∃ t, decrementTimers s = .ok t ∧ t.DT.toNat = s.DT.toNat - 1 ∧ t.ST.toNat = s.ST.toNat - 1 ∧
    FrameExcept s t (fun p => p = .delayTimer ∨ p = .soundTimer)

/-- R40: what `construct` leaves, from any state, and the state after reset. -/
def Obligations.ConstructLeavesTheResetState : Prop :=
  Config.font.length = 80 ∧ isResetCore State.reset ∧ ∀ s : State, ∃ t, construct s = .ok t ∧ isResetCore t

/-- R262: `load` copies a ROM that fits to 0x200 and changes nothing else; one that does not fit is rejected whole. -/
def Obligations.LoadCopiesTheRomOrRejectsIt : Prop :=
  ∀ (bytes : List Byte) (s : State),
    (Config.memSize - 0x200 < bytes.length → load bytes s = .err .outOfBounds s) ∧
    (bytes.length ≤ Config.memSize - 0x200 → ∃ t, load bytes s = .ok t ∧
      (∀ (k : Nat) (h : k < bytes.length), t.byte (0x200 + k) = bytes[k]) ∧
      FrameExcept s t (fun p => ∃ k < bytes.length, p = .byte (0x200 + k)))

/-- The invariant holds after reset.  Its bounds on pc and the return addresses are those of R26, which the spec marks as
derived; the canonical form of memory is the model's own, log entry 12. -/
def Obligations.ResetMeetsTheInvariant : Prop := State.reset.Inv

/-- Every step, and every operation of the host whether it succeeds or fails, keeps the invariant: canonical memory
inside its bounds, pc at most 0x10FE, every valid return address at most MEM_SIZE (the bounds of R26, which the spec
marks as derived).  The canonical form is the model's own, log entry 12. -/
def Obligations.EveryOperationKeepsTheInvariant : Prop :=
  (∀ s t : State, s.Inv → step s = .next t → t.Inv) ∧
  (∀ (move : HostMove) (s t : State), s.Inv → (operate move s).stateLeft = some t → t.Inv)

/-- In no tick from a state that meets the invariant does the 16-bit pc wrap: the fetch advance, every instruction's
write of pc and a failed tick's pc are what the same sums give in unbounded integers, and no tick, failed ones included,
leaves pc above 0x10FE.  (The spec marks R26 and R140 as derived.) -/
def Obligations.PcNeverWraps : Prop :=
  ∀ s : State, s.Inv →
    (∀ op, fetch s = .ok op →
      (afterFetch s).pc.toNat = s.pc.toNat + 2 ∧ (afterFetch s).pc.toNat ≤ Config.memSize) ∧
    (∀ (i : Instr) (t : State), fetches s i → tick s = .ok t → pcAfter i s t.pc.toNat) ∧
    (∀ (e : Fault) (t : State), tick s = .err e t →
      (∀ op, fetch s ≠ .ok op) ∧ t.pc.toNat = s.pc.toNat ∨
      (∃ op, fetch s = .ok op) ∧ t.pc.toNat = s.pc.toNat + 2) ∧
    (∀ t : State, (tick s).stateLeft = some t → t.pc.toNat ≤ 0x10FE)

/-- A parked program stays as it is: a tick of `1NNN` at its own address leaves the whole state unchanged.  (The spec
marks the idiom of R274 as general knowledge and derives the fixed point from R133.) -/
def Obligations.ParkedProgramIsAFixedPoint : Prop :=
  ∀ s : State, s.parked → tick s = .ok s
end

