-- ==== Sys2Proof/Laws/State.lean ====
section
/-! SUPPORT. One lemma per field per update of State, so that no proof unfolds a record update; and the reads of one
register, byte and cell after each update. -/

namespace Sys2Proof.Machine

variable (s : State)

/-! ### setReg -/

@[simp] theorem State.setReg_mem (i : Reg) (v : Byte) : (s.setReg i v).mem = s.mem := rfl
@[simp] theorem State.setReg_V (i : Reg) (v : Byte) : (s.setReg i v).V = s.V.set i v := rfl
@[simp] theorem State.setReg_I (i : Reg) (v : Byte) : (s.setReg i v).I = s.I := rfl
@[simp] theorem State.setReg_pc (i : Reg) (v : Byte) : (s.setReg i v).pc = s.pc := rfl
@[simp] theorem State.setReg_stack (i : Reg) (v : Byte) : (s.setReg i v).stack = s.stack := rfl
@[simp] theorem State.setReg_sp (i : Reg) (v : Byte) : (s.setReg i v).sp = s.sp := rfl
@[simp] theorem State.setReg_DT (i : Reg) (v : Byte) : (s.setReg i v).DT = s.DT := rfl
@[simp] theorem State.setReg_ST (i : Reg) (v : Byte) : (s.setReg i v).ST = s.ST := rfl
@[simp] theorem State.setReg_disp (i : Reg) (v : Byte) : (s.setReg i v).disp = s.disp := rfl
@[simp] theorem State.setReg_host (i : Reg) (v : Byte) : (s.setReg i v).host = s.host := rfl
@[simp] theorem State.setReg_byte (i : Reg) (v : Byte) (a : Nat) : (s.setReg i v).byte a = s.byte a := rfl
@[simp] theorem State.setReg_pixel (i : Reg) (v : Byte) (px : Fin 64) (py : Fin 32) : (s.setReg i v).pixel px py = s.pixel px py := rfl

/-! ### setI -/

@[simp] theorem State.setI_mem (w : Word) : (s.setI w).mem = s.mem := rfl
@[simp] theorem State.setI_V (w : Word) : (s.setI w).V = s.V := rfl
@[simp] theorem State.setI_I (w : Word) : (s.setI w).I = w := rfl
@[simp] theorem State.setI_pc (w : Word) : (s.setI w).pc = s.pc := rfl
@[simp] theorem State.setI_stack (w : Word) : (s.setI w).stack = s.stack := rfl
@[simp] theorem State.setI_sp (w : Word) : (s.setI w).sp = s.sp := rfl
@[simp] theorem State.setI_DT (w : Word) : (s.setI w).DT = s.DT := rfl
@[simp] theorem State.setI_ST (w : Word) : (s.setI w).ST = s.ST := rfl
@[simp] theorem State.setI_disp (w : Word) : (s.setI w).disp = s.disp := rfl
@[simp] theorem State.setI_host (w : Word) : (s.setI w).host = s.host := rfl
@[simp] theorem State.setI_reg (w : Word) (j : Reg) : (s.setI w).reg j = s.reg j := rfl
@[simp] theorem State.setI_byte (w : Word) (a : Nat) : (s.setI w).byte a = s.byte a := rfl
@[simp] theorem State.setI_pixel (w : Word) (px : Fin 64) (py : Fin 32) : (s.setI w).pixel px py = s.pixel px py := rfl

/-! ### setDT -/

@[simp] theorem State.setDT_mem (v : Byte) : (s.setDT v).mem = s.mem := rfl
@[simp] theorem State.setDT_V (v : Byte) : (s.setDT v).V = s.V := rfl
@[simp] theorem State.setDT_I (v : Byte) : (s.setDT v).I = s.I := rfl
@[simp] theorem State.setDT_pc (v : Byte) : (s.setDT v).pc = s.pc := rfl
@[simp] theorem State.setDT_stack (v : Byte) : (s.setDT v).stack = s.stack := rfl
@[simp] theorem State.setDT_sp (v : Byte) : (s.setDT v).sp = s.sp := rfl
@[simp] theorem State.setDT_DT (v : Byte) : (s.setDT v).DT = v := rfl
@[simp] theorem State.setDT_ST (v : Byte) : (s.setDT v).ST = s.ST := rfl
@[simp] theorem State.setDT_disp (v : Byte) : (s.setDT v).disp = s.disp := rfl
@[simp] theorem State.setDT_host (v : Byte) : (s.setDT v).host = s.host := rfl
@[simp] theorem State.setDT_reg (v : Byte) (j : Reg) : (s.setDT v).reg j = s.reg j := rfl
@[simp] theorem State.setDT_byte (v : Byte) (a : Nat) : (s.setDT v).byte a = s.byte a := rfl
@[simp] theorem State.setDT_pixel (v : Byte) (px : Fin 64) (py : Fin 32) : (s.setDT v).pixel px py = s.pixel px py := rfl

/-! ### setST -/

@[simp] theorem State.setST_mem (v : Byte) : (s.setST v).mem = s.mem := rfl
@[simp] theorem State.setST_V (v : Byte) : (s.setST v).V = s.V := rfl
@[simp] theorem State.setST_I (v : Byte) : (s.setST v).I = s.I := rfl
@[simp] theorem State.setST_pc (v : Byte) : (s.setST v).pc = s.pc := rfl
@[simp] theorem State.setST_stack (v : Byte) : (s.setST v).stack = s.stack := rfl
@[simp] theorem State.setST_sp (v : Byte) : (s.setST v).sp = s.sp := rfl
@[simp] theorem State.setST_DT (v : Byte) : (s.setST v).DT = s.DT := rfl
@[simp] theorem State.setST_ST (v : Byte) : (s.setST v).ST = v := rfl
@[simp] theorem State.setST_disp (v : Byte) : (s.setST v).disp = s.disp := rfl
@[simp] theorem State.setST_host (v : Byte) : (s.setST v).host = s.host := rfl
@[simp] theorem State.setST_reg (v : Byte) (j : Reg) : (s.setST v).reg j = s.reg j := rfl
@[simp] theorem State.setST_byte (v : Byte) (a : Nat) : (s.setST v).byte a = s.byte a := rfl
@[simp] theorem State.setST_pixel (v : Byte) (px : Fin 64) (py : Fin 32) : (s.setST v).pixel px py = s.pixel px py := rfl

/-! ### setPc -/

@[simp] theorem State.setPc_mem (w : Word) : (s.setPc w).mem = s.mem := rfl
@[simp] theorem State.setPc_V (w : Word) : (s.setPc w).V = s.V := rfl
@[simp] theorem State.setPc_I (w : Word) : (s.setPc w).I = s.I := rfl
@[simp] theorem State.setPc_pc (w : Word) : (s.setPc w).pc = w := rfl
@[simp] theorem State.setPc_stack (w : Word) : (s.setPc w).stack = s.stack := rfl
@[simp] theorem State.setPc_sp (w : Word) : (s.setPc w).sp = s.sp := rfl
@[simp] theorem State.setPc_DT (w : Word) : (s.setPc w).DT = s.DT := rfl
@[simp] theorem State.setPc_ST (w : Word) : (s.setPc w).ST = s.ST := rfl
@[simp] theorem State.setPc_disp (w : Word) : (s.setPc w).disp = s.disp := rfl
@[simp] theorem State.setPc_host (w : Word) : (s.setPc w).host = s.host := rfl
@[simp] theorem State.setPc_reg (w : Word) (j : Reg) : (s.setPc w).reg j = s.reg j := rfl
@[simp] theorem State.setPc_byte (w : Word) (a : Nat) : (s.setPc w).byte a = s.byte a := rfl
@[simp] theorem State.setPc_pixel (w : Word) (px : Fin 64) (py : Fin 32) : (s.setPc w).pixel px py = s.pixel px py := rfl

/-! ### advancePc -/

@[simp] theorem State.advancePc_mem : (s.advancePc).mem = s.mem := rfl
@[simp] theorem State.advancePc_V : (s.advancePc).V = s.V := rfl
@[simp] theorem State.advancePc_I : (s.advancePc).I = s.I := rfl
@[simp] theorem State.advancePc_pc : (s.advancePc).pc = s.pc + 2 := rfl
@[simp] theorem State.advancePc_stack : (s.advancePc).stack = s.stack := rfl
@[simp] theorem State.advancePc_sp : (s.advancePc).sp = s.sp := rfl
@[simp] theorem State.advancePc_DT : (s.advancePc).DT = s.DT := rfl
@[simp] theorem State.advancePc_ST : (s.advancePc).ST = s.ST := rfl
@[simp] theorem State.advancePc_disp : (s.advancePc).disp = s.disp := rfl
@[simp] theorem State.advancePc_host : (s.advancePc).host = s.host := rfl
@[simp] theorem State.advancePc_reg (j : Reg) : (s.advancePc).reg j = s.reg j := rfl
@[simp] theorem State.advancePc_byte (a : Nat) : (s.advancePc).byte a = s.byte a := rfl
@[simp] theorem State.advancePc_pixel (px : Fin 64) (py : Fin 32) : (s.advancePc).pixel px py = s.pixel px py := rfl

/-! ### retreatPc -/

@[simp] theorem State.retreatPc_mem : (s.retreatPc).mem = s.mem := rfl
@[simp] theorem State.retreatPc_V : (s.retreatPc).V = s.V := rfl
@[simp] theorem State.retreatPc_I : (s.retreatPc).I = s.I := rfl
@[simp] theorem State.retreatPc_pc : (s.retreatPc).pc = s.pc - 2 := rfl
@[simp] theorem State.retreatPc_stack : (s.retreatPc).stack = s.stack := rfl
@[simp] theorem State.retreatPc_sp : (s.retreatPc).sp = s.sp := rfl
@[simp] theorem State.retreatPc_DT : (s.retreatPc).DT = s.DT := rfl
@[simp] theorem State.retreatPc_ST : (s.retreatPc).ST = s.ST := rfl
@[simp] theorem State.retreatPc_disp : (s.retreatPc).disp = s.disp := rfl
@[simp] theorem State.retreatPc_host : (s.retreatPc).host = s.host := rfl
@[simp] theorem State.retreatPc_reg (j : Reg) : (s.retreatPc).reg j = s.reg j := rfl
@[simp] theorem State.retreatPc_byte (a : Nat) : (s.retreatPc).byte a = s.byte a := rfl
@[simp] theorem State.retreatPc_pixel (px : Fin 64) (py : Fin 32) : (s.retreatPc).pixel px py = s.pixel px py := rfl

/-! ### setDisp -/

@[simp] theorem State.setDisp_mem (d : Display) : (s.setDisp d).mem = s.mem := rfl
@[simp] theorem State.setDisp_V (d : Display) : (s.setDisp d).V = s.V := rfl
@[simp] theorem State.setDisp_I (d : Display) : (s.setDisp d).I = s.I := rfl
@[simp] theorem State.setDisp_pc (d : Display) : (s.setDisp d).pc = s.pc := rfl
@[simp] theorem State.setDisp_stack (d : Display) : (s.setDisp d).stack = s.stack := rfl
@[simp] theorem State.setDisp_sp (d : Display) : (s.setDisp d).sp = s.sp := rfl
@[simp] theorem State.setDisp_DT (d : Display) : (s.setDisp d).DT = s.DT := rfl
@[simp] theorem State.setDisp_ST (d : Display) : (s.setDisp d).ST = s.ST := rfl
@[simp] theorem State.setDisp_disp (d : Display) : (s.setDisp d).disp = d := rfl
@[simp] theorem State.setDisp_host (d : Display) : (s.setDisp d).host = s.host := rfl
@[simp] theorem State.setDisp_reg (d : Display) (j : Reg) : (s.setDisp d).reg j = s.reg j := rfl
@[simp] theorem State.setDisp_byte (d : Display) (a : Nat) : (s.setDisp d).byte a = s.byte a := rfl

/-! ### storeBytes -/

@[simp] theorem State.storeBytes_mem (a : Nat) (bs : List Byte) : (s.storeBytes a bs).mem = s.mem.writeList a bs := rfl
@[simp] theorem State.storeBytes_V (a : Nat) (bs : List Byte) : (s.storeBytes a bs).V = s.V := rfl
@[simp] theorem State.storeBytes_I (a : Nat) (bs : List Byte) : (s.storeBytes a bs).I = s.I := rfl
@[simp] theorem State.storeBytes_pc (a : Nat) (bs : List Byte) : (s.storeBytes a bs).pc = s.pc := rfl
@[simp] theorem State.storeBytes_stack (a : Nat) (bs : List Byte) : (s.storeBytes a bs).stack = s.stack := rfl
@[simp] theorem State.storeBytes_sp (a : Nat) (bs : List Byte) : (s.storeBytes a bs).sp = s.sp := rfl
@[simp] theorem State.storeBytes_DT (a : Nat) (bs : List Byte) : (s.storeBytes a bs).DT = s.DT := rfl
@[simp] theorem State.storeBytes_ST (a : Nat) (bs : List Byte) : (s.storeBytes a bs).ST = s.ST := rfl
@[simp] theorem State.storeBytes_disp (a : Nat) (bs : List Byte) : (s.storeBytes a bs).disp = s.disp := rfl
@[simp] theorem State.storeBytes_host (a : Nat) (bs : List Byte) : (s.storeBytes a bs).host = s.host := rfl
@[simp] theorem State.storeBytes_reg (a : Nat) (bs : List Byte) (j : Reg) : (s.storeBytes a bs).reg j = s.reg j := rfl
@[simp] theorem State.storeBytes_pixel (a : Nat) (bs : List Byte) (px : Fin 64) (py : Fin 32) : (s.storeBytes a bs).pixel px py = s.pixel px py := rfl

/-! ### withInput -/

@[simp] theorem State.withInput_mem (input : TickInput) : (s.withInput input).mem = s.mem := rfl
@[simp] theorem State.withInput_V (input : TickInput) : (s.withInput input).V = s.V := rfl
@[simp] theorem State.withInput_I (input : TickInput) : (s.withInput input).I = s.I := rfl
@[simp] theorem State.withInput_pc (input : TickInput) : (s.withInput input).pc = s.pc := rfl
@[simp] theorem State.withInput_stack (input : TickInput) : (s.withInput input).stack = s.stack := rfl
@[simp] theorem State.withInput_sp (input : TickInput) : (s.withInput input).sp = s.sp := rfl
@[simp] theorem State.withInput_DT (input : TickInput) : (s.withInput input).DT = s.DT := rfl
@[simp] theorem State.withInput_ST (input : TickInput) : (s.withInput input).ST = s.ST := rfl
@[simp] theorem State.withInput_disp (input : TickInput) : (s.withInput input).disp = s.disp := rfl
@[simp] theorem State.withInput_host (input : TickInput) : (s.withInput input).host = { s.host with input := input } := rfl
@[simp] theorem State.withInput_reg (input : TickInput) (j : Reg) : (s.withInput input).reg j = s.reg j := rfl
@[simp] theorem State.withInput_byte (input : TickInput) (a : Nat) : (s.withInput input).byte a = s.byte a := rfl
@[simp] theorem State.withInput_pixel (input : TickInput) (px : Fin 64) (py : Fin 32) : (s.withInput input).pixel px py = s.pixel px py := rfl

/-! ### Reads after the write of the same kind -/

@[simp] theorem State.setReg_reg_self (i : Reg) (v : Byte) : (s.setReg i v).reg i = v := by
  simp [State.setReg, State.reg]

/-- Every register is the one written or as before (10_state.md R22). -/
theorem State.setReg_reg (i j : Reg) (v : Byte) : (s.setReg i v).reg j = if j = i then v else s.reg j := by
  simp [State.setReg, State.reg, Vector.getElem_set, Fin.ext_iff, eq_comm]

@[simp] theorem State.setReg_reg_ne {i j : Reg} (v : Byte) (h : j ≠ i) : (s.setReg i v).reg j = s.reg j := by
  rw [State.setReg_reg, if_neg h]

@[simp] theorem State.storeBytes_byte (a : Nat) (bs : List Byte) (c : Nat) :
    (s.storeBytes a bs).byte c = (s.mem.writeList a bs).read c := rfl

@[simp] theorem State.setDisp_pixel (d : Display) (px : Fin 64) (py : Fin 32) : (s.setDisp d).pixel px py = d.get px py := rfl

/-! ### Skips and the parameters -/

theorem State.skipIf_eq (c : Bool) : s.skipIf c = s.setPc (if c then s.pc + 2 else s.pc) := by
  cases c <;> rfl

@[simp] theorem State.skipIf_pc (c : Bool) : (s.skipIf c).pc = if c then s.pc + 2 else s.pc := by
  cases c <;> rfl

@[simp] theorem shiftOperand_eq (x y : Reg) : shiftOperand x y = x := rfl

@[simp] theorem State.afterLogic_eq : s.afterLogic = s := rfl

@[simp] theorem State.afterBlock_eq (x : Reg) : s.afterBlock x = s := rfl

@[simp] theorem pixelDrawn_eq (px py : Nat) : pixelDrawn px py = true := rfl

/-! ### The host's side -/

/-- Taking the next move changes the host's side alone, and a listed move is taken as it stands. -/
theorem State.nextMove_snd : s.nextMove.2 = { s with host := s.nextMove.2.host } := by
  unfold State.nextMove; split <;> rfl

theorem State.nextMove_cons {m : HostMove} {rest : List HostMove} (h : s.host.pending = m :: rest) :
    s.nextMove = (m, { s with host := { s.host with pending := rest } }) := by
  simp only [State.nextMove, h]

theorem State.nextMove_nil (h : s.host.pending = []) :
    s.nextMove = (freeMove s.host.draws, { s with host := { s.host with draws := s.host.draws + 1 } }) := by
  simp only [State.nextMove, h]

/-- After `tickFirst` the next call is a `tick`, and the calls listed before are all still to come. -/
theorem HostSide.tickFirst_pending (h : HostSide) :
    ∃ input, h.tickFirst.pending = .tick input :: h.pending ∨
      ∃ rest, h.pending = .tick input :: rest ∧ h.tickFirst.pending = h.pending := by
  unfold HostSide.tickFirst
  split
  · exact ⟨_, .inr ⟨_, ‹_›, rfl⟩⟩
  · exact ⟨_, .inl rfl⟩

@[simp] theorem HostSide.tickFirst_input (h : HostSide) : h.tickFirst.input = h.input := by
  unfold HostSide.tickFirst; split <;> rfl

@[simp] theorem State.nextMove_mem : s.nextMove.2.mem = s.mem := by rw [State.nextMove_snd]
@[simp] theorem State.nextMove_pc : s.nextMove.2.pc = s.pc := by rw [State.nextMove_snd]
@[simp] theorem State.nextMove_stack : s.nextMove.2.stack = s.stack := by rw [State.nextMove_snd]
@[simp] theorem State.nextMove_sp : s.nextMove.2.sp = s.sp := by rw [State.nextMove_snd]

end Sys2Proof.Machine
end

