-- ==== Sys2Proof/Laws/DisplayGrid.lean ====
section
/-! SUPPORT. The display grid: reads after writes, and what drawing a sprite does in closed form. -/

namespace Sys2Proof.Machine

theorem Display.get_put (d : Display) (px qx : Fin 64) (py qy : Fin 32) (v : Bool) :
    (d.put px py v).get qx qy = if qx = px ∧ qy = py then v else d.get qx qy := by
  show (d.set px.val (d[px.val].set py.val v))[qx.val][qy.val] = _
  by_cases hx : qx = px
  · subst hx
    by_cases hy : qy = py
    · subst hy; simp
    · have : py.val ≠ qy.val := fun h => hy (Fin.ext h.symm)
      simp [hy, this, Display.get]
  · have : px.val ≠ qx.val := fun h => hx (Fin.ext h.symm)
    simp [hx, this, Display.get]

theorem xor_eq_true_iff (a b : Bool) : (a ^^ b) = true ↔ ¬(a = true ↔ b = true) := by revert a b; decide

@[simp] theorem Display.get_clear (px : Fin 64) (py : Fin 32) : Display.clear.get px py = false := by
  simp [Display.get, Display.clear]

/-- Two grids with the same cells are the same grid. -/
theorem Display.ext_get {d e : Display} (h : ∀ px py, d.get px py = e.get px py) : d = e := by
  apply Vector.ext
  intro i hi
  apply Vector.ext
  intro j hj
  exact h ⟨i, hi⟩ ⟨j, hj⟩

/-- Plotting one bit: an on bit flips its own cell and reports a cell that was on. -/
theorem plot_eq (px py : Nat) (bit : Bool) (acc : Display × Bool) :
    (∀ qx qy, (plot px py bit acc).1.get qx qy =
      (acc.1.get qx qy ^^ (bit && decide (qx.val = px % 64 ∧ qy.val = py % 32)))) ∧
    (plot px py bit acc).2 = (acc.2 || bit && acc.1.get (Fin.ofNat 64 px) (Fin.ofNat 32 py)) := by
  cases bit with
  | false => simp [plot]
  | true =>
    simp only [plot, pixelDrawn_eq, Bool.and_self, if_true, Bool.true_and, and_true]
    intro qx qy
    rw [Display.get_put]
    by_cases h : qx.val = px % 64 ∧ qy.val = py % 32
    · have hx : qx = Fin.ofNat 64 px := Fin.ext h.1
      have hy : qy = Fin.ofNat 32 py := Fin.ext h.2
      rw [if_pos ⟨hx, hy⟩, ← hx, ← hy]
      simp [h]
    · rw [if_neg (fun hc => h ⟨by rw [hc.1]; rfl, by rw [hc.2]; rfl⟩)]
      simp [h]

/-- The on bit of column c of row byte b lies on the cell (px, py) of a row drawn at column x0 and row y (R202). -/
def rowCovers (x0 y : Nat) (b : Byte) (px : Fin 64) (py : Fin 32) (c : Nat) : Prop :=
  b.getLsbD (7 - c) = true ∧ px.val = (x0 + c) % 64 ∧ py.val = y % 32

/-- A row of at most eight columns: the covered cells flip, and a covered cell that was on is a collision. -/
theorem plotColumns_eq (x0 y : Nat) (b : Byte) (acc : Display × Bool) (j : Nat) (hj : j ≤ 8) :
    let r := (List.range j).foldl (fun acc c => plot (x0 + c) y (b.getLsbD (7 - c)) acc) acc
    (∀ qx qy, (r.1.get qx qy = true ↔ ¬(acc.1.get qx qy = true ↔ ∃ c < j, rowCovers x0 y b qx qy c))) ∧
    (r.2 = true ↔ acc.2 = true ∨ ∃ c < j, ∃ qx qy, rowCovers x0 y b qx qy c ∧ acc.1.get qx qy = true) := by
  induction j with
  | zero => simp
  | succ j ih =>
    obtain ⟨ih1, ih2⟩ := ih (by omega)
    simp only [List.range_succ, List.foldl_append, List.foldl_cons, List.foldl_nil]
    generalize (List.range j).foldl (fun acc c => plot (x0 + c) y (b.getLsbD (7 - c)) acc) acc = r at ih1 ih2
    obtain ⟨p1, p2⟩ := plot_eq (x0 + j) y (b.getLsbD (7 - j)) r
    constructor
    · intro qx qy
      have hnew : (b.getLsbD (7 - j) && decide (qx.val = (x0 + j) % 64 ∧ qy.val = y % 32)) = true ↔
          rowCovers x0 y b qx qy j := by simp [rowCovers]
      have hone : (∃ c < j, rowCovers x0 y b qx qy c) → ¬rowCovers x0 y b qx qy j := by
        rintro ⟨c, hc, h1⟩ h2
        have := h1.2.1; have := h2.2.1
        omega
      have hsplit : (∃ c < j + 1, rowCovers x0 y b qx qy c) ↔
          (∃ c < j, rowCovers x0 y b qx qy c) ∨ rowCovers x0 y b qx qy j := by
        constructor
        · rintro ⟨c, hc, h⟩
          rcases Nat.lt_succ_iff_lt_or_eq.mp hc with h1 | h1
          · exact .inl ⟨c, h1, h⟩
          · exact .inr (h1 ▸ h)
        · rintro (⟨c, hc, h⟩ | h)
          · exact ⟨c, by omega, h⟩
          · exact ⟨j, by omega, h⟩
      rw [p1, xor_eq_true_iff, hsplit]
      have ih := ih1 qx qy
      rw [hnew]
      by_cases hn : rowCovers x0 y b qx qy j <;> by_cases ho : ∃ c < j, rowCovers x0 y b qx qy c
      · exact absurd hn (hone ho)
      all_goals simp only [hn, ho, iff_true, iff_false, not_not, or_true, or_false] at ih ⊢
      all_goals rw [ih]
    · rw [p2, Bool.or_eq_true, ih2, Bool.and_eq_true]
      have hcell : ∀ (_ : b.getLsbD (7 - j) = true),
          (r.1.get (Fin.ofNat 64 (x0 + j)) (Fin.ofNat 32 y) = true ↔
            acc.1.get (Fin.ofNat 64 (x0 + j)) (Fin.ofNat 32 y) = true) := by
        intro _
        have hno : ¬∃ c < j, rowCovers x0 y b (Fin.ofNat 64 (x0 + j)) (Fin.ofNat 32 y) c := by
          rintro ⟨c, hc, h⟩
          have : (x0 + j) % 64 = (x0 + c) % 64 := h.2.1
          omega
        rw [ih1, iff_false_right hno, not_not]
      constructor
      · rintro ((h | ⟨c, hc, h⟩) | ⟨hb, h⟩)
        · exact .inl h
        · exact .inr ⟨c, by omega, h⟩
        · exact .inr ⟨j, by omega, _, _, ⟨hb, rfl, rfl⟩, (hcell hb).mp h⟩
      · rintro (h | ⟨c, hc, qx, qy, h, hd⟩)
        · exact .inl (.inl h)
        · rcases Nat.lt_succ_iff_lt_or_eq.mp hc with h1 | h1
          · exact .inl (.inr ⟨c, h1, qx, qy, h, hd⟩)
          · subst h1
            have hx : qx = Fin.ofNat 64 (x0 + c) := Fin.ext h.2.1
            have hy : qy = Fin.ofNat 32 y := Fin.ext h.2.2
            subst hx hy
            exact .inr ⟨h.1, (hcell h.1).mpr hd⟩

/-- The on bit of column c of row k of the n-row sprite at address a lies on the cell (px, py), for a sprite drawn at
(x0, y0) with both coordinates wrapping (44_display.md R202). -/
def spriteCovers (m : Memory) (a x0 y0 n : Nat) (px : Fin 64) (py : Fin 32) : Prop :=
  ∃ k < n, ∃ c < 8, (m.read (a + k)).getLsbD (7 - c) = true ∧ px.val = (x0 + c) % 64 ∧ py.val = (y0 + k) % 32

/-- What drawing does (44_display.md R202), for a sprite no taller than the screen: exactly the covered cells flip, and
the collision flag says whether a covered cell was on. -/
theorem plotSprite_eq (m : Memory) (a x0 y0 n : Nat) (d : Display) (hn : n ≤ 32) :
    (∀ px py, ((plotSprite m a x0 y0 n d).1.get px py = true ↔
      ¬(d.get px py = true ↔ spriteCovers m a x0 y0 n px py))) ∧
    ((plotSprite m a x0 y0 n d).2 = true ↔ ∃ px py, spriteCovers m a x0 y0 n px py ∧ d.get px py = true) := by
  induction n with
  | zero => simp [plotSprite, spriteCovers]
  | succ n ih =>
    obtain ⟨ih1, ih2⟩ := ih (by omega)
    have hstep : plotSprite m a x0 y0 (n + 1) d =
        plotRow x0 (y0 + n) (m.read (a + n)) (plotSprite m a x0 y0 n d) := by
      simp [plotSprite, List.range_succ]
    obtain ⟨r1, r2⟩ := plotColumns_eq x0 (y0 + n) (m.read (a + n)) (plotSprite m a x0 y0 n d) 8 (le_refl 8)
    have hsplit : ∀ px py, spriteCovers m a x0 y0 (n + 1) px py ↔
        spriteCovers m a x0 y0 n px py ∨ ∃ c < 8, rowCovers x0 (y0 + n) (m.read (a + n)) px py c := by
      intro px py
      constructor
      · rintro ⟨k, hk, h⟩
        rcases Nat.lt_succ_iff_lt_or_eq.mp hk with h1 | h1
        · exact .inl ⟨k, h1, h⟩
        · exact .inr (h1 ▸ h)
      · rintro (⟨k, hk, h⟩ | h)
        · exact ⟨k, by omega, h⟩
        · exact ⟨n, by omega, h⟩
    have hone : ∀ px py, spriteCovers m a x0 y0 n px py →
        ¬∃ c < 8, rowCovers x0 (y0 + n) (m.read (a + n)) px py c := by
      rintro px py ⟨k, hk, c, hc, h⟩ ⟨c', hc', h'⟩
      have := h.2.2; have := h'.2.2
      omega
    rw [hstep]
    constructor
    · intro px py
      have hr := r1 px py
      have hi := ih1 px py
      have ho := hone px py
      rw [hsplit]
      unfold plotRow
      by_cases h1 : spriteCovers m a x0 y0 n px py <;>
        by_cases h2 : ∃ c < 8, rowCovers x0 (y0 + n) (m.read (a + n)) px py c
      · exact absurd h2 (ho h1)
      all_goals simp only [h1, h2, iff_true, iff_false, not_not, or_true, or_false] at hr hi ⊢
      all_goals rw [hr, hi]
    · unfold plotRow
      rw [r2, ih2]
      constructor
      · rintro (⟨px, py, h, hd⟩ | ⟨c, hc, px, py, h, hd⟩)
        · exact ⟨px, py, (hsplit px py).mpr (.inl h), hd⟩
        · refine ⟨px, py, (hsplit px py).mpr (.inr ⟨c, hc, h⟩), ?_⟩
          have hno : ¬spriteCovers m a x0 y0 n px py := fun hs => hone px py hs ⟨c, hc, h⟩
          rw [ih1, iff_false_right hno, not_not] at hd
          exact hd
      · rintro ⟨px, py, h, hd⟩
        rcases (hsplit px py).mp h with h1 | ⟨c, hc, h1⟩
        · exact .inl ⟨px, py, h1, hd⟩
        · have hno : ¬spriteCovers m a x0 y0 n px py := fun hs => hone px py hs ⟨c, hc, h1⟩
          exact .inr ⟨c, hc, px, py, h1, by rw [ih1, iff_false_right hno, not_not]; exact hd⟩

end Sys2Proof.Machine
end

