-- ==== Sys2Proof/Laws/Encoding.lean ====
section
/-! SUPPORT. The masks of 30_encoding.md R85 in terms of nibbles, the fields of packed words, and bytes of a word. -/

namespace Sys2Proof

/-! ### Masks -/

/-- Masking with F000 plus a low mask of k bits keeps the top nibble and the low k bits. -/
theorem and_mask_eq (n k : Nat) (hn : n < 65536) (hk : k ≤ 12) :
    n &&& (61440 + (2 ^ k - 1)) = 4096 * (n / 4096) + n % 2 ^ k := by
  have hlow : n % 2 ^ k < 2 ^ 12 :=
    lt_of_lt_of_le (Nat.mod_lt _ (by positivity)) (Nat.pow_le_pow_right (by norm_num) hk)
  have hmask : 61440 + (2 ^ k - 1) = 2 ^ 12 * 15 ||| (2 ^ k - 1) := by
    rw [← Nat.two_pow_add_eq_or_of_lt]
    have : 2 ^ k ≤ 2 ^ 12 := Nat.pow_le_pow_right (by norm_num) hk
    have : 0 < 2 ^ k := by positivity
    omega
  rw [hmask, show (4096 : Nat) = 2 ^ 12 from rfl, Nat.two_pow_add_eq_or_of_lt hlow]
  apply Nat.eq_of_testBit_eq
  intro i
  simp only [Nat.testBit_and, Nat.testBit_or, Nat.testBit_two_pow_mul, Nat.testBit_two_pow_sub_one,
    Nat.testBit_div_two_pow, Nat.testBit_mod_two_pow]
  by_cases hi : 12 ≤ i
  · have hki : ¬i < k := by omega
    have h12 : i - 12 + 12 = i := by omega
    simp only [hi, hki, decide_true, decide_false, Bool.true_and, Bool.or_false, Bool.false_and, h12]
    by_cases h16 : i < 16
    · have : Nat.testBit 15 (i - 12) = true := by
        have : i - 12 < 4 := by omega
        interval_cases i - 12 <;> rfl
      rw [this, Bool.and_true]
    · rw [Nat.testBit_eq_false_of_lt (lt_of_lt_of_le hn (by
        calc 65536 = 2 ^ 16 := by norm_num
          _ ≤ 2 ^ i := Nat.pow_le_pow_right (by norm_num) (by omega)))]
      rfl
  · simp [hi, Bool.and_comm]

/-- A word fits a mask F000 plus k low bits iff its top nibble and its low bits are the pattern's. -/
theorem mask_fits_iff (op : Word) (k d e : Nat) (hk : k ≤ 12) (hd : d < 16) (he : e < 2 ^ k) :
    op &&& BitVec.ofNat 16 (61440 + (2 ^ k - 1)) = BitVec.ofNat 16 (d * 4096 + e) ↔
      d1 op = d ∧ op.toNat % 2 ^ k = e := by
  have hp : 2 ^ k ≤ 4096 := by
    calc 2 ^ k ≤ 2 ^ 12 := Nat.pow_le_pow_right (by norm_num) hk
      _ = 4096 := by norm_num
  have hmod : op.toNat % 2 ^ k < 2 ^ k := Nat.mod_lt _ (by positivity)
  have hop := op.isLt
  rw [← BitVec.toNat_inj, BitVec.toNat_and, BitVec.toNat_ofNat, BitVec.toNat_ofNat,
    Nat.mod_eq_of_lt (by omega), Nat.mod_eq_of_lt (by omega), and_mask_eq _ _ hop hk]
  unfold d1
  omega

theorem fits_F000_iff (op : Word) (d : Nat) (hd : d < 16) :
    op &&& 0xF000 = BitVec.ofNat 16 (d * 4096) ↔ d1 op = d := by
  simpa [Nat.mod_one] using mask_fits_iff op 0 d 0 (by norm_num) hd (by norm_num)

theorem fits_F00F_iff (op : Word) (d e : Nat) (hd : d < 16) (he : e < 16) :
    op &&& 0xF00F = BitVec.ofNat 16 (d * 4096 + e) ↔ d1 op = d ∧ d4 op = e :=
  mask_fits_iff op 4 d e (by norm_num) hd he

theorem fits_F0FF_iff (op : Word) (d e : Nat) (hd : d < 16) (he : e < 256) :
    op &&& 0xF0FF = BitVec.ofNat 16 (d * 4096 + e) ↔ d1 op = d ∧ lowByte op = e :=
  mask_fits_iff op 8 d e (by norm_num) hd he

/-! ### Packed words -/

theorem encodeNat_lt (i : Instr) : encodeNat i < 65536 := by
  cases i <;> simp only [encodeNat, packNNN, packXNN, packXYN, packX] <;> omega

@[simp] theorem encode_toNat (i : Instr) : (encode i).toNat = encodeNat i :=
  Nat.mod_eq_of_lt (encodeNat_lt i)

theorem fields_packNNN {i : Instr} {d : Nat} {nnn : Addr} (h : encodeNat i = packNNN d nnn) :
    fieldNNN (encode i) = nnn ∧ (d < 16 → d1 (encode i) = d) := by
  rw [fieldNNN, d1, encode_toNat, h, packNNN]
  refine ⟨?_, by omega⟩
  apply BitVec.eq_of_toNat_eq; simp; omega

theorem fields_packXNN {i : Instr} {d : Nat} {x : Reg} {nn : Byte} (h : encodeNat i = packXNN d x nn) :
    fieldX (encode i) = x ∧ fieldNN (encode i) = nn ∧ (d < 16 → d1 (encode i) = d) := by
  rw [fieldX, fieldNN, d1, encode_toNat, h, packXNN]
  refine ⟨?_, ?_, by omega⟩
  · apply Fin.ext; simp [Fin.ofNat]; omega
  · apply BitVec.eq_of_toNat_eq; simp; omega

theorem fields_packXYN {i : Instr} {d : Nat} {x y n : Fin 16} (h : encodeNat i = packXYN d x y n) :
    fieldX (encode i) = x ∧ fieldY (encode i) = y ∧ fieldN (encode i) = n ∧ d4 (encode i) = n.val ∧
    (d < 16 → d1 (encode i) = d) := by
  rw [fieldX, fieldY, fieldN, d4, d1, encode_toNat, h, packXYN]
  refine ⟨?_, ?_, ?_, by omega, by omega⟩ <;> (apply Fin.ext; simp [Fin.ofNat]; omega)

theorem fields_packX {i : Instr} {d e : Nat} {x : Reg} (h : encodeNat i = packX d x e) (he : e < 256) :
    fieldX (encode i) = x ∧ lowByte (encode i) = e ∧ (d < 16 → d1 (encode i) = d) := by
  rw [fieldX, lowByte, d1, encode_toNat, h, packX]
  refine ⟨?_, by omega, by omega⟩
  apply Fin.ext; simp [Fin.ofNat]; omega

theorem d1_lt (op : Word) : d1 op < 16 := by have := op.isLt; unfold d1; omega

/-! ### Bytes of a word -/

/-- A word laid out in memory order and read back is the word (20_memory.md R51). -/
theorem wordOfBytes_split (op : Word) : wordOfBytes (highByteOf op) (lowByteOf op) = op := by
  apply BitVec.eq_of_toNat_eq
  have := op.isLt
  simp only [wordOfBytes, highByteOf, lowByteOf, BitVec.toNat_ofNat]
  omega

theorem wordOfBytes_toNat (hi lo : Byte) : (wordOfBytes hi lo).toNat = hi.toNat * 256 + lo.toNat := by
  have := hi.isLt; have := lo.isLt
  simp only [wordOfBytes, BitVec.toNat_ofNat]
  omega

end Sys2Proof
end

