-- ==== Sys2Proof/Laws/Memory.lean ====
section
/-! SUPPORT. Memory: what a read answers after a write, and that every write keeps the canonical form. -/

namespace Sys2Proof.Machine

theorem Memory.read_unlist (m : Memory) (a c : Nat) :
    (m.unlist a).read c = if c = a then resetByte a else m.read c := by
  induction m with
  | nil => simp +contextual [Memory.unlist, Memory.read]
  | cons cell rest ih =>
    obtain ⟨a', b'⟩ := cell
    simp only [Memory.unlist] at ih ⊢
    by_cases h : a' = a
    · subst h
      simp only [bne_self_eq_false, Bool.false_eq_true, not_false_eq_true, List.filter_cons_of_neg, ih, Memory.read]
      split <;> simp_all [eq_comm]
    · simp only [bne_iff_ne, ne_eq, h, not_false_eq_true, List.filter_cons_of_pos, Memory.read, ih]
      split <;> simp_all

theorem Memory.read_insert (m : Memory) (a c : Nat) (b : Byte) (h : ∀ cell ∈ m, cell.1 ≠ a) :
    (m.insert a b).read c = if c = a then b else m.read c := by
  induction m with
  | nil => simp [Memory.insert, Memory.read, eq_comm]
  | cons cell rest ih =>
    obtain ⟨a', b'⟩ := cell
    have ha : a' ≠ a := h (a', b') (by simp)
    have ih := ih (fun cell hc => h cell (by simp [hc]))
    simp only [Memory.insert]
    split
    · by_cases h1 : c = a <;> simp [Memory.read, h1, eq_comm (a := a) (b := c)]
    · simp only [Memory.read, ih]; split <;> simp_all

/-- A read after a write: the byte written at its address, and every other address as before (20_memory.md R61). -/
theorem Memory.read_write (m : Memory) (a c : Nat) (b : Byte) :
    (m.write a b).read c = if c = a then b else m.read c := by
  unfold Memory.write
  split
  · rename_i h; rw [Memory.read_unlist, ← h]
  · rw [Memory.read_insert _ _ _ _ (by simp [Memory.unlist]), Memory.read_unlist]
    split <;> rfl

/-- Reads after a store of several bytes: byte k of the list at `a + k`, and every other address as before. -/
theorem Memory.read_writeList (m : Memory) (a c : Nat) (bs : List Byte) :
    (m.writeList a bs).read c = if a ≤ c ∧ c < a + bs.length then bs.getD (c - a) 0 else m.read c := by
  induction bs generalizing m a with
  | nil => simp [Memory.writeList]
  | cons b bs ih =>
    rw [Memory.writeList, ih, Memory.read_write]
    by_cases h : c = a
    · subst h; simp
    · by_cases h2 : a + 1 ≤ c ∧ c < a + 1 + bs.length
      · have e : c - a = (c - (a + 1)) + 1 := by omega
        rw [if_pos h2, if_pos (by simp; omega), e, List.getD_cons_succ]
      · rw [if_neg h2, if_neg h, if_neg (by simp; omega)]

/-! ### The reset contents -/

/-- The font fills its region: sixteen glyphs of five bytes (20_memory.md R57). -/
theorem font_length : Config.font.length = Config.fontLen ∧ Config.fontLen = Config.numGlyphs * Config.glyphLen := ⟨rfl, rfl⟩

theorem resetByte_font {a : Nat} (h : a < Config.fontLen) : resetByte a = Config.font.getD a 0 := by
  simp [resetByte, Config.fontBase, h]

theorem resetByte_zero {a : Nat} (h : Config.fontLen ≤ a) : resetByte a = 0 := by
  simp [resetByte, Config.fontBase, h]

/-! ### The canonical form -/

theorem Memory.wfFrom_le {m : Memory} {lo lo' : Nat} (hle : lo' ≤ lo) (h : Memory.wfFrom lo m = true) :
    Memory.wfFrom lo' m = true := by
  cases m with
  | nil => rfl
  | cons cell rest =>
    simp only [Memory.wfFrom, Bool.and_eq_true, decide_eq_true_eq] at h ⊢
    exact ⟨⟨⟨by omega, h.1.1.2⟩, h.1.2⟩, h.2⟩

theorem Memory.wfFrom_unlist {m : Memory} {lo : Nat} (a : Nat) (h : Memory.wfFrom lo m = true) :
    Memory.wfFrom lo (m.unlist a) = true := by
  induction m generalizing lo with
  | nil => rfl
  | cons cell rest ih =>
    obtain ⟨a', b'⟩ := cell
    simp only [Memory.wfFrom, Bool.and_eq_true, decide_eq_true_eq] at h
    have ih := ih h.2
    by_cases ha : a' = a
    · have : Memory.unlist ((a', b') :: rest) a = Memory.unlist rest a := by simp [Memory.unlist, ha]
      rw [this]; exact Memory.wfFrom_le (by omega) ih
    · have : Memory.unlist ((a', b') :: rest) a = (a', b') :: Memory.unlist rest a := by simp [Memory.unlist, ha]
      simp only [this, Memory.wfFrom, Bool.and_eq_true, decide_eq_true_eq]
      exact ⟨⟨⟨h.1.1.1, h.1.1.2⟩, h.1.2⟩, ih⟩

theorem Memory.wfFrom_insert {m : Memory} {lo a : Nat} {b : Byte} (h : Memory.wfFrom lo m = true) (hlo : lo ≤ a)
    (ha : inMemory a = true) (hb : b ≠ resetByte a) (hnot : ∀ cell ∈ m, cell.1 ≠ a) :
    Memory.wfFrom lo (m.insert a b) = true := by
  induction m generalizing lo with
  | nil => simp [Memory.insert, Memory.wfFrom, hlo, ha, hb]
  | cons cell rest ih =>
    obtain ⟨a', b'⟩ := cell
    have hne : a' ≠ a := hnot (a', b') (by simp)
    have hrest : ∀ cell ∈ rest, cell.1 ≠ a := fun cell hc => hnot cell (by simp [hc])
    simp only [Memory.wfFrom, Bool.and_eq_true, decide_eq_true_eq] at h
    simp only [Memory.insert]
    split
    · rename_i hlt
      simp only [Memory.wfFrom, Bool.and_eq_true, decide_eq_true_eq, bne_iff_ne]
      exact ⟨⟨⟨hlo, ha⟩, hb⟩, ⟨⟨⟨by omega, h.1.1.2⟩, by simpa using h.1.2⟩, h.2⟩⟩
    · simp only [Memory.wfFrom, Bool.and_eq_true, decide_eq_true_eq]
      exact ⟨h.1, ih h.2 (by omega) hrest⟩

/-- A write inside memory keeps the canonical form. -/
theorem Memory.wf_write {m : Memory} {a : Nat} (b : Byte) (h : m.wf = true) (ha : inMemory a = true) :
    (m.write a b).wf = true := by
  unfold Memory.write Memory.wf
  split
  · exact Memory.wfFrom_unlist a h
  · rename_i hb
    exact Memory.wfFrom_insert (Memory.wfFrom_unlist a h) (Nat.zero_le _) ha hb (by simp [Memory.unlist])

/-- A store of several bytes inside memory keeps the canonical form. -/
theorem Memory.wf_writeList {m : Memory} {a : Nat} {bs : List Byte} (h : m.wf = true)
    (ha : a + bs.length ≤ Config.memSize) : (m.writeList a bs).wf = true := by
  induction bs generalizing m a with
  | nil => exact h
  | cons b bs ih =>
    simp only [List.length_cons] at ha
    exact ih (Memory.wf_write b h (by simp [inMemory]; omega)) (by omega)

theorem reset_mem_wf : State.reset.mem.wf = true := rfl

/-! ### The form is canonical -/

theorem Memory.read_below {m : Memory} {lo a : Nat} (h : Memory.wfFrom lo m = true) (ha : a < lo) :
    m.read a = resetByte a := by
  induction m generalizing lo with
  | nil => rfl
  | cons cell rest ih =>
    obtain ⟨a', b'⟩ := cell
    simp only [Memory.wfFrom, Bool.and_eq_true, decide_eq_true_eq] at h
    rw [Memory.read, if_neg (by omega)]
    exact ih h.2 (by omega)

theorem Memory.wfFrom_ext {m m' : Memory} {lo : Nat} (h : Memory.wfFrom lo m = true) (h' : Memory.wfFrom lo m' = true)
    (hr : ∀ a, m.read a = m'.read a) : m = m' := by
  induction m generalizing m' lo with
  | nil =>
    cases m' with
    | nil => rfl
    | cons cell rest =>
      obtain ⟨a, b⟩ := cell
      simp only [Memory.wfFrom, Bool.and_eq_true, bne_iff_ne] at h'
      exact absurd (by simpa [Memory.read] using (hr a).symm) h'.1.2
  | cons cell rest ih =>
    obtain ⟨a, b⟩ := cell
    simp only [Memory.wfFrom, Bool.and_eq_true, decide_eq_true_eq, bne_iff_ne] at h
    cases m' with
    | nil => exact absurd (by simpa [Memory.read] using hr a) h.1.2
    | cons cell' rest' =>
      obtain ⟨a', b'⟩ := cell'
      simp only [Memory.wfFrom, Bool.and_eq_true, decide_eq_true_eq, bne_iff_ne] at h'
      rcases Nat.lt_trichotomy a a' with hlt | heq | hgt
      · have := hr a
        rw [Memory.read, Memory.read, if_pos rfl, if_neg (by omega), Memory.read_below h'.2 (by omega)] at this
        exact absurd this h.1.2
      · subst heq
        have hb : b = b' := by simpa [Memory.read] using hr a
        subst hb
        rw [ih h.2 h'.2]
        intro c
        by_cases hc : c = a
        · subst hc; rw [Memory.read_below h.2 (by omega), Memory.read_below h'.2 (by omega)]
        · have := hr c
          rwa [Memory.read, Memory.read, if_neg (Ne.symm hc), if_neg (Ne.symm hc)] at this
      · have := hr a'
        rw [Memory.read, Memory.read, if_neg (by omega), if_pos rfl, Memory.read_below h.2 (by omega)] at this
        exact absurd this.symm h'.1.2

/-- Equal memories are equal data: two canonical memories that read alike are the same list. -/
theorem Memory.wf_ext {m m' : Memory} (h : m.wf = true) (h' : m'.wf = true) (hr : ∀ a, m.read a = m'.read a) : m = m' :=
  Memory.wfFrom_ext h h' hr

end Sys2Proof.Machine
end

