-- ==== Sys2Proof/Laws/Ops.lean ====
section
/-! SUPPORT. One lemma per shared operation: everything it can do, for proofs to cite instead of unfolding it. -/

namespace Sys2Proof.Machine

/-! ### Checks -/

theorem inMemory_iff (a : Nat) : inMemory a = true ↔ a < Config.memSize := by simp [inMemory]

/-- The range check lets `done` through iff there is no byte to touch or the last one lies in memory (20_memory.md R56). -/
theorem checkRange_eq (a n : Nat) (done : Result) :
    checkRange a n done = if n = 0 ∨ a + n ≤ Config.memSize then done else .fault .outOfBounds := by
  unfold checkRange raise
  by_cases h : n = 0
  · simp [h]
  · simp only [h, if_false, false_or, inMemory_iff]
    by_cases h2 : a + n ≤ Config.memSize
    · rw [if_pos (by omega), if_pos h2]
    · rw [if_neg (by omega), if_neg h2]

theorem checkRange_next_iff {a n : Nat} {s t : State} :
    checkRange a n (.next s) = .next t ↔ (n = 0 ∨ a + n ≤ Config.memSize) ∧ s = t := by
  rw [checkRange_eq]; split <;> simp_all

theorem checkRange_fault_iff {a n : Nat} {s : State} {e : Fault} :
    checkRange a n (.next s) = .fault e ↔ ¬(n = 0 ∨ a + n ≤ Config.memSize) ∧ e = .outOfBounds := by
  rw [checkRange_eq]; split <;> simp_all [eq_comm]

theorem checkRange_not_refused {a n : Nat} {s : State} {r : Refusal} : checkRange a n (.next s) ≠ .refused r := by
  rw [checkRange_eq]; split <;> simp

/-- A number operand is the register's value when it is below the bound (45_timers_keys.md R210). -/
theorem digit_ok_iff {n : Nat} {v : Byte} {d : Fin n} : digit n v = .ok d ↔ v.toNat = d.val := by
  unfold digit
  split
  · simp [Fin.ext_iff]
  · simp; omega

theorem digit_error_iff {n : Nat} {v : Byte} {e : Fault} : digit n v = .error e ↔ e = .outOfBounds ∧ n ≤ v.toNat := by
  unfold digit
  split
  · simp; omega
  · simp [eq_comm]; omega

/-! ### Stack -/

/-- A push below the top: the entry, the count, and nothing else (41_control_flow.md R134). -/
theorem State.push_ok {s t : State} {w : Word} (h : s.push w = .ok t) :
    ∃ hsp : s.sp.val < 16, t = { s with stack := s.stack.set s.sp.val w, sp := ⟨s.sp.val + 1, by omega⟩ } := by
  unfold State.push at h
  split at h
  · exact ⟨‹_›, by simpa using h.symm⟩
  · cases h

theorem State.push_error_iff {s : State} {w : Word} {e : Fault} :
    s.push w = .error e ↔ e = .stackFault ∧ s.sp.val = 16 := by
  unfold State.push
  split
  · simp; omega
  · simp [eq_comm]; omega

theorem State.push_eq {s : State} (w : Word) (h : s.sp.val < 16) :
    s.push w = .ok { s with stack := s.stack.set s.sp.val w, sp := ⟨s.sp.val + 1, by omega⟩ } := by
  unfold State.push; rw [dif_pos h]

/-- A pop from a stack that is not empty: the latest entry, the count, and nothing else (41_control_flow.md R132). -/
theorem State.pop_ok {s t : State} {w : Word} (h : s.pop = .ok (w, t)) :
    ∃ hsp : 0 < s.sp.val, w = s.stack[s.sp.val - 1]'(by omega) ∧ t = { s with sp := ⟨s.sp.val - 1, by omega⟩ } := by
  unfold State.pop at h
  split at h
  · simp only [Except.ok.injEq, Prod.mk.injEq] at h
    exact ⟨‹_›, h.1.symm, h.2.symm⟩
  · cases h

theorem State.pop_error_iff {s : State} {e : Fault} : s.pop = .error e ↔ e = .stackFault ∧ s.sp.val = 0 := by
  unfold State.pop
  split
  · simp; omega
  · simp [eq_comm]; omega

theorem State.pop_eq {s : State} (h : 0 < s.sp.val) :
    s.pop = .ok (s.stack[s.sp.val - 1]'(by omega), { s with sp := ⟨s.sp.val - 1, by omega⟩ }) := by
  unfold State.pop; rw [dif_pos h]

theorem State.stackBounded_iff (s : State) :
    s.stackBounded = true ↔ ∀ k : StackIndex, k.val < s.sp.val → s.stack[k].toNat ≤ Config.memSize := decide_eq_true_iff

/-! ### Blocks of registers -/

/-- Loading n registers writes registers alone. -/
theorem State.loadRegs_frame (s : State) (a n : Nat) : s.loadRegs a n = { s with V := (s.loadRegs a n).V } := by
  induction n with
  | zero => rfl
  | succ n ih => rw [State.loadRegs, ih]; rfl

@[simp] theorem State.loadRegs_mem (s : State) (a n : Nat) : (s.loadRegs a n).mem = s.mem := by
  rw [State.loadRegs_frame]

/-- Register j becomes `mem[a + j]` for j below n and is as before from n up (43_index_memory.md R187). -/
theorem State.loadRegs_reg (s : State) (a n : Nat) (j : Reg) (hn : n ≤ 16) :
    (s.loadRegs a n).reg j = if j.val < n then s.byte (a + j.val) else s.reg j := by
  induction n with
  | zero => simp [State.loadRegs]
  | succ n ih =>
    have hv : (Fin.ofNat 16 n).val = n := Nat.mod_eq_of_lt (by omega)
    rw [State.loadRegs, State.setReg_reg, ih (by omega)]
    by_cases h : j = Fin.ofNat 16 n
    · have : j.val = n := by rw [h, hv]
      rw [if_pos h, if_pos (by omega), this]
    · have : j.val ≠ n := fun hj => h (Fin.ext (by rw [hv, hj]))
      rw [if_neg h]
      by_cases h2 : j.val < n
      · rw [if_pos h2, if_pos (by omega)]
      · rw [if_neg h2, if_neg (by omega)]

@[simp] theorem State.regsUpTo_length (s : State) (x : Reg) : (s.regsUpTo x).length = x.val + 1 := by
  simp [State.regsUpTo]

/-- Byte k of the dump is register k. -/
theorem State.regsUpTo_getD (s : State) (x k : Reg) (h : k ≤ x) : (s.regsUpTo x).getD k.val 0 = s.reg k := by
  have hk : k.val < x.val + 1 := by have := Fin.le_def.mp h; omega
  simp [State.regsUpTo, List.getD, hk]

@[simp] theorem bcdDigits_length (v : Byte) : (bcdDigits v).length = 3 := rfl

/-! ### Keys -/

/-- With no key down the search finds nothing, and otherwise it finds the least key that is down (45_timers_keys.md R216). -/
theorem State.lowestKeyDown_none_iff {s : State} : s.lowestKeyDown = none ↔ ∀ k, s.keyDown k = false := by
  simp [State.lowestKeyDown, List.find?_eq_none]

theorem State.lowestKeyDown_some {s : State} {k : Fin 16} (h : s.lowestKeyDown = some k) :
    s.keyDown k = true ∧ ∀ j, j < k → s.keyDown j = false := by
  unfold State.lowestKeyDown at h
  refine ⟨List.find?_some h, fun j hj => ?_⟩
  obtain ⟨-, as, bs, hsplit, has⟩ := List.find?_eq_some_iff_append.mp h
  have hj' : j ∈ as := by
    have hmem : j ∈ as ++ k :: bs := hsplit ▸ List.mem_finRange j
    have hlt : (as ++ k :: bs).Pairwise (· < ·) := hsplit ▸ List.pairwise_lt_finRange 16
    rcases List.mem_append.mp hmem with h1 | h1
    · exact h1
    · rcases List.mem_cons.mp h1 with h2 | h2
      · omega
      · exact absurd hj (lt_asymm ((List.pairwise_cons.mp (List.pairwise_append.mp hlt).2.1).1 j h2))
  simpa using has j hj'

/-! ### Fetch, execute, tick -/

theorem fetch_eq (s : State) :
    fetch s = if s.pc.toNat + 1 < Config.memSize then
      .ok (wordOfBytes (s.byte s.pc.toNat) (s.byte (s.pc.toNat + 1))) else .error .outOfBounds := by
  unfold fetch Memory.read2
  simp only [inMemory_iff]
  rfl

/-- Everything a `tick` that succeeds has done: fetched two bytes of memory, decoded them, and executed the instruction
on the state with the advanced pc (40_execution_cycle.md R110). -/
theorem tick_ok_cases {s t : State} (h : tick s = .ok t) :
    ∃ op i, fetch s = .ok op ∧ decodeWord op = .ok i ∧ exec i s.advancePc = .next t := by
  unfold tick at h
  split at h
  · cases h
  · rename_i op hf
    split at h
    · cases h
    · rename_i i hd
      refine ⟨op, i, hf, hd, ?_⟩
      unfold execute at h
      split at h <;> simp_all

/-- Everything an error of a `tick` can come from, with the state it leaves (40_execution_cycle.md R116). -/
theorem tick_err_cases {s t : State} {e : Fault} (h : tick s = .err e t) :
    (fetch s = .error e ∧ t = s) ∨
    (∃ op d, fetch s = .ok op ∧ decodeWord op = .error d ∧ e = .invalidOpcode ∧ t = s.advancePc) ∨
    (∃ op i, fetch s = .ok op ∧ decodeWord op = .ok i ∧ exec i s.advancePc = .fault e ∧ t = s.advancePc) := by
  unfold tick at h
  split at h
  · rename_i hf; simp only [OpResult.err.injEq] at h; exact .inl ⟨by rw [hf, h.1], h.2.symm⟩
  · rename_i op hf
    split at h
    · rename_i d hd; simp only [OpResult.err.injEq] at h; exact .inr (.inl ⟨op, d, hf, hd, h.1.symm, h.2.symm⟩)
    · rename_i i hd
      refine .inr (.inr ⟨op, i, hf, hd, ?_⟩)
      unfold execute at h
      split at h <;> simp_all

/-- A step is one operation of the host, and it answers a next state iff the operation returns Ok. -/
theorem step_next_iff {s t : State} : step s = .next t ↔ operate s.nextMove.1 s.nextMove.2 = .ok t := by
  unfold step OpResult.outcome; split <;> simp_all

theorem step_fault_iff {s : State} {e : Fault} :
    step s = .fault e ↔ ∃ t, operate s.nextMove.1 s.nextMove.2 = .err e t := by
  unfold step OpResult.outcome; split <;> simp_all

end Sys2Proof.Machine
end

