-- ==== Sys2Proof/Laws/Frames.lean ====
section
/-! SUPPORT. The frame of each shared update: what it leaves unchanged, part by part. -/

namespace Sys2Proof.Machine

/-- A frame with more parts written is weaker. -/
theorem FrameExcept.weaken {s t : State} {p q : Part → Prop} (h : FrameExcept s t p) (hpq : ∀ x, p x → q x) :
    FrameExcept s t q := fun x hx => h x (fun hp => hx (hpq x hp))

theorem State.setReg_frame (s : State) (x : Reg) (v : Byte) : FrameExcept s (s.setReg x v) (fun p => p = .reg x) := by
  intro p hp; cases p <;> simp_all [Part.Same]

theorem State.setPc_frame (s : State) (w : Word) : FrameExcept s (s.setPc w) (fun p => p = .pc) := by
  intro p hp; cases p <;> simp_all [Part.Same]

theorem State.skipIf_frame (s : State) (c : Bool) : FrameExcept s (s.skipIf c) (fun p => p = .pc) := by
  rw [State.skipIf_eq]; exact s.setPc_frame _

theorem State.setI_frame (s : State) (w : Word) : FrameExcept s (s.setI w) (fun p => p = .index) := by
  intro p hp; cases p <;> simp_all [Part.Same]

theorem State.setDT_frame (s : State) (v : Byte) : FrameExcept s (s.setDT v) (fun p => p = .delayTimer) := by
  intro p hp; cases p <;> simp_all [Part.Same]

theorem State.setST_frame (s : State) (v : Byte) : FrameExcept s (s.setST v) (fun p => p = .soundTimer) := by
  intro p hp; cases p <;> simp_all [Part.Same]

theorem State.setDisp_frame (s : State) (d : Display) : FrameExcept s (s.setDisp d) (fun p => ∃ px py, p = .cell px py) := by
  intro p hp; cases p <;> simp_all [Part.Same]

theorem State.writeWithFlag_frame (s : State) (x : Reg) (r : Byte) (f : Bool) :
    FrameExcept s (s.writeWithFlag x r f) (fun p => p = .reg x ∨ p = .reg VF) := by
  intro p hp; cases p <;> simp_all [Part.Same, State.writeWithFlag]

/-- The flag wins when the destination is VF, and otherwise both stand (42_load_alu.md R157). -/
theorem State.writeWithFlag_reg (s : State) (x : Reg) (r : Byte) (f : Bool) :
    (x ≠ VF → (s.writeWithFlag x r f).reg x = r) ∧ (s.writeWithFlag x r f).reg VF = flagByte f :=
  ⟨fun h => by simp [State.writeWithFlag, h], by simp [State.writeWithFlag]⟩

theorem State.storeBytes_frame (s : State) (a : Nat) (bs : List Byte) :
    FrameExcept s (s.storeBytes a bs) (fun p => ∃ k < bs.length, p = .byte (a + k)) := by
  intro p hp
  cases p with
  | byte c =>
    simp only [Part.Same, State.storeBytes_byte, Memory.read_writeList]
    rw [if_neg]
    · rfl
    · rintro ⟨h1, h2⟩
      exact hp ⟨c - a, by omega, by congr 1; omega⟩
  | _ => simp [Part.Same]

theorem State.loadRegs_frameExcept (s : State) (a n : Nat) (hn : n ≤ 16) :
    FrameExcept s (s.loadRegs a n) (fun p => ∃ k : Reg, k.val < n ∧ p = .reg k) := by
  intro p hp
  cases p with
  | reg j =>
    simp only [Part.Same]
    rw [State.loadRegs_reg _ _ _ _ hn, if_neg]
    exact fun hj => hp ⟨j, hj, rfl⟩
  | _ => rw [State.loadRegs_frame]; simp [Part.Same, State.byte, State.pixel]

theorem State.push_frame {s t : State} {w : Word} (h : s.push w = .ok t) :
    FrameExcept s t (fun p => p = .sp ∨ ∃ k : Fin 16, k.val = s.sp.val ∧ p = .stackEntry k) := by
  obtain ⟨hsp, rfl⟩ := State.push_ok h
  intro p hp
  cases p with
  | stackEntry k =>
    have : s.sp.val ≠ k.val := fun hk => hp (.inr ⟨k, hk.symm, rfl⟩)
    simp [Part.Same, this]
  | _ => simp_all [Part.Same, State.reg, State.byte, State.pixel]

theorem State.pop_frame {s t : State} {w : Word} (h : s.pop = .ok (w, t)) : FrameExcept s t (fun p => p = .sp) := by
  obtain ⟨hsp, -, rfl⟩ := State.pop_ok h
  intro p hp
  cases p <;> simp_all [Part.Same, State.reg, State.byte, State.pixel]

/-- Two updates in turn write what either writes. -/
theorem FrameExcept.trans {s t u : State} {p q : Part → Prop} (h : FrameExcept s t p) (h' : FrameExcept t u q) :
    FrameExcept s u (fun x => p x ∨ q x) := by
  intro x hx
  have h1 := h x (fun hp => hx (.inl hp))
  have h2 := h' x (fun hq => hx (.inr hq))
  cases x <;> exact Eq.trans h2 h1

end Sys2Proof.Machine
end

