-- ==== Sys2Proof/Laws/PerInstr.lean ====
section
/-! SUPPORT. Statements made for every instruction, one lemma a constructor: the encoded word carries the fixed bits of
its row of 30_encoding.md R85. -/

namespace Sys2Proof.Laws.TableRow

/-- The mask of the instruction's row (R85).  The rows of CLS and RET fix every bit. -/
def maskOf : Instr → Word
  | .cls | .ret => 0xFFFF
  | .sys _ | .jp _ | .call _ | .seImm _ _ | .sneImm _ _ | .ldImm _ _ | .addImm _ _ | .ldI _ | .jpV0 _ | .rnd _ _
  | .drw _ _ _ => 0xF000
  | .seReg _ _ | .ldReg _ _ | .orReg _ _ | .andReg _ _ | .xorReg _ _ | .addReg _ _ | .sub _ _ | .shr _ _ | .subn _ _
  | .shl _ _ | .sneReg _ _ => 0xF00F
  | .skp _ | .sknp _ | .ldVxDT _ | .ldVxK _ | .ldDTVx _ | .ldSTVx _ | .addI _ | .ldF _ | .ldB _ | .ldMemVx _
  | .ldVxMem _ => 0xF0FF

/-- The match value of the instruction's row (R85). -/
def matchOf : Instr → Word
  | .cls => 0x00E0 | .ret => 0x00EE | .sys _ => 0x0000 | .jp _ => 0x1000 | .call _ => 0x2000
  | .seImm _ _ => 0x3000 | .sneImm _ _ => 0x4000 | .seReg _ _ => 0x5000 | .ldImm _ _ => 0x6000 | .addImm _ _ => 0x7000
  | .ldReg _ _ => 0x8000 | .orReg _ _ => 0x8001 | .andReg _ _ => 0x8002 | .xorReg _ _ => 0x8003 | .addReg _ _ => 0x8004
  | .sub _ _ => 0x8005 | .shr _ _ => 0x8006 | .subn _ _ => 0x8007 | .shl _ _ => 0x800E | .sneReg _ _ => 0x9000
  | .ldI _ => 0xA000 | .jpV0 _ => 0xB000 | .rnd _ _ => 0xC000 | .drw _ _ _ => 0xD000 | .skp _ => 0xE09E
  | .sknp _ => 0xE0A1 | .ldVxDT _ => 0xF007 | .ldVxK _ => 0xF00A | .ldDTVx _ => 0xF015 | .ldSTVx _ => 0xF018
  | .addI _ => 0xF01E | .ldF _ => 0xF029 | .ldB _ => 0xF033 | .ldMemVx _ => 0xF055 | .ldVxMem _ => 0xF065

/-- The encoded word fits its row: `encode i & mask = match`. -/
def Statement (i : Instr) : Prop := encode i &&& maskOf i = matchOf i

theorem nnn_fits {i : Instr} {d : Nat} {nnn : Addr} (hd : d < 16) (h : encodeNat i = packNNN d nnn) :
    encode i &&& 0xF000 = BitVec.ofNat 16 (d * 4096) := by
  rw [fits_F000_iff _ _ hd, d1, encode_toNat, h, packNNN]; omega

theorem xnn_fits {i : Instr} {d : Nat} {x : Reg} {nn : Byte} (hd : d < 16) (h : encodeNat i = packXNN d x nn) :
    encode i &&& 0xF000 = BitVec.ofNat 16 (d * 4096) := by
  rw [fits_F000_iff _ _ hd, d1, encode_toNat, h, packXNN]; omega

theorem xyn_fits {i : Instr} {d : Nat} {x y n : Fin 16} (hd : d < 16) (h : encodeNat i = packXYN d x y n) :
    encode i &&& 0xF000 = BitVec.ofNat 16 (d * 4096) := by
  rw [fits_F000_iff _ _ hd, d1, encode_toNat, h, packXYN]; omega

theorem xy_fits {i : Instr} {d : Nat} {x y n : Fin 16} (hd : d < 16) (h : encodeNat i = packXYN d x y n) :
    encode i &&& 0xF00F = BitVec.ofNat 16 (d * 4096 + n.val) := by
  rw [fits_F00F_iff _ _ _ hd n.isLt, d1, d4, encode_toNat, h, packXYN]; omega

theorem x_fits {i : Instr} {d e : Nat} {x : Reg} (hd : d < 16) (he : e < 256) (h : encodeNat i = packX d x e) :
    encode i &&& 0xF0FF = BitVec.ofNat 16 (d * 4096 + e) := by
  rw [fits_F0FF_iff _ _ _ hd he, d1, lowByte, encode_toNat, h, packX]; omega

theorem cls : Statement .cls := by unfold Statement; decide
theorem ret : Statement .ret := by unfold Statement; decide
theorem sys (nnn : Addr) : Statement (.sys nnn) := nnn_fits (d := 0) (by decide) rfl
theorem jp (nnn : Addr) : Statement (.jp nnn) := nnn_fits (d := 1) (by decide) rfl
theorem call (nnn : Addr) : Statement (.call nnn) := nnn_fits (d := 2) (by decide) rfl
theorem seImm (x : Reg) (nn : Byte) : Statement (.seImm x nn) := xnn_fits (d := 3) (by decide) rfl
theorem sneImm (x : Reg) (nn : Byte) : Statement (.sneImm x nn) := xnn_fits (d := 4) (by decide) rfl
theorem seReg (x y : Reg) : Statement (.seReg x y) := xy_fits (i := .seReg x y) (n := 0) (d := 5) (by decide) rfl
theorem ldImm (x : Reg) (nn : Byte) : Statement (.ldImm x nn) := xnn_fits (d := 6) (by decide) rfl
theorem addImm (x : Reg) (nn : Byte) : Statement (.addImm x nn) := xnn_fits (d := 7) (by decide) rfl
theorem ldReg (x y : Reg) : Statement (.ldReg x y) := xy_fits (i := .ldReg x y) (n := 0) (d := 8) (by decide) rfl
theorem orReg (x y : Reg) : Statement (.orReg x y) := xy_fits (i := .orReg x y) (n := 1) (d := 8) (by decide) rfl
theorem andReg (x y : Reg) : Statement (.andReg x y) := xy_fits (i := .andReg x y) (n := 2) (d := 8) (by decide) rfl
theorem xorReg (x y : Reg) : Statement (.xorReg x y) := xy_fits (i := .xorReg x y) (n := 3) (d := 8) (by decide) rfl
theorem addReg (x y : Reg) : Statement (.addReg x y) := xy_fits (i := .addReg x y) (n := 4) (d := 8) (by decide) rfl
theorem sub (x y : Reg) : Statement (.sub x y) := xy_fits (i := .sub x y) (n := 5) (d := 8) (by decide) rfl
theorem shr (x y : Reg) : Statement (.shr x y) := xy_fits (i := .shr x y) (n := 6) (d := 8) (by decide) rfl
theorem subn (x y : Reg) : Statement (.subn x y) := xy_fits (i := .subn x y) (n := 7) (d := 8) (by decide) rfl
theorem shl (x y : Reg) : Statement (.shl x y) := xy_fits (i := .shl x y) (n := 0xE) (d := 8) (by decide) rfl
theorem sneReg (x y : Reg) : Statement (.sneReg x y) := xy_fits (i := .sneReg x y) (n := 0) (d := 9) (by decide) rfl
theorem ldI (nnn : Addr) : Statement (.ldI nnn) := nnn_fits (d := 10) (by decide) rfl
theorem jpV0 (nnn : Addr) : Statement (.jpV0 nnn) := nnn_fits (d := 11) (by decide) rfl
theorem rnd (x : Reg) (nn : Byte) : Statement (.rnd x nn) := xnn_fits (d := 12) (by decide) rfl
theorem drw (x y : Reg) (n : Fin 16) : Statement (.drw x y n) := xyn_fits (d := 13) (by decide) rfl
theorem skp (x : Reg) : Statement (.skp x) := x_fits (i := .skp x) (e := 0x9E) (d := 14) (by decide) (by decide) rfl
theorem sknp (x : Reg) : Statement (.sknp x) := x_fits (i := .sknp x) (e := 0xA1) (d := 14) (by decide) (by decide) rfl
theorem ldVxDT (x : Reg) : Statement (.ldVxDT x) := x_fits (i := .ldVxDT x) (e := 0x07) (d := 15) (by decide) (by decide) rfl
theorem ldVxK (x : Reg) : Statement (.ldVxK x) := x_fits (i := .ldVxK x) (e := 0x0A) (d := 15) (by decide) (by decide) rfl
theorem ldDTVx (x : Reg) : Statement (.ldDTVx x) := x_fits (i := .ldDTVx x) (e := 0x15) (d := 15) (by decide) (by decide) rfl
theorem ldSTVx (x : Reg) : Statement (.ldSTVx x) := x_fits (i := .ldSTVx x) (e := 0x18) (d := 15) (by decide) (by decide) rfl
theorem addI (x : Reg) : Statement (.addI x) := x_fits (i := .addI x) (e := 0x1E) (d := 15) (by decide) (by decide) rfl
theorem ldF (x : Reg) : Statement (.ldF x) := x_fits (i := .ldF x) (e := 0x29) (d := 15) (by decide) (by decide) rfl
theorem ldB (x : Reg) : Statement (.ldB x) := x_fits (i := .ldB x) (e := 0x33) (d := 15) (by decide) (by decide) rfl
theorem ldMemVx (x : Reg) : Statement (.ldMemVx x) := x_fits (i := .ldMemVx x) (e := 0x55) (d := 15) (by decide) (by decide) rfl
theorem ldVxMem (x : Reg) : Statement (.ldVxMem x) := x_fits (i := .ldVxMem x) (e := 0x65) (d := 15) (by decide) (by decide) rfl

end Sys2Proof.Laws.TableRow
end

