-- ==== Sys2Proof/Tests/Slice0.lean ====
section
/-! SUPPORT. The model's own tests.  Expected values are the spec's: the examples of the rules and the vectors of
95_test_vectors.md (S for its part 1, V for its part 2), never the model's own answer.  Then one witness theorem for
each statement that has hypotheses: concrete data that meet them, at the boundary values of each clause. -/

namespace Sys2Proof.Tests

open Sys2Proof.Machine Sys2Proof.Claims

/-! ### Well-formedness refuses the two words that are CLS and RET -/

theorem test_sys_0E0_is_ill_formed : (Instr.sys 0x0E0).wellFormed = false := by decide
theorem test_sys_0EE_is_ill_formed : (Instr.sys 0x0EE).wellFormed = false := by decide
theorem test_sys_0E1_is_well_formed : (Instr.sys 0x0E1).wellFormed = true := by decide

/-! ### Decoding: words written out from the patterns of R85, one a constructor (V-DEC, 30_encoding.md section 6) -/

theorem test_decode_control :
    decodeWord 0x00E0 = .ok .cls ∧ decodeWord 0x00EE = .ok .ret ∧ decodeWord 0x0123 = .ok (.sys 0x123) ∧
    decodeWord 0x1000 = .ok (.jp 0) ∧ decodeWord 0x2FFF = .ok (.call 0xFFF) ∧ decodeWord 0x3FFF = .ok (.seImm 15 0xFF) ∧
    decodeWord 0x4000 = .ok (.sneImm 0 0) ∧ decodeWord 0x5120 = .ok (.seReg 1 2) ∧
    decodeWord 0x9AB0 = .ok (.sneReg 10 11) ∧ decodeWord 0xBFFF = .ok (.jpV0 0xFFF) := by decide

theorem test_decode_alu :
    decodeWord 0x6ABC = .ok (.ldImm 10 0xBC) ∧ decodeWord 0x7F00 = .ok (.addImm 15 0) ∧
    decodeWord 0x8AB0 = .ok (.ldReg 10 11) ∧ decodeWord 0x8121 = .ok (.orReg 1 2) ∧ decodeWord 0x8122 = .ok (.andReg 1 2) ∧
    decodeWord 0x8123 = .ok (.xorReg 1 2) ∧ decodeWord 0x8AB4 = .ok (.addReg 10 11) ∧ decodeWord 0x8125 = .ok (.sub 1 2) ∧
    decodeWord 0x8126 = .ok (.shr 1 2) ∧ decodeWord 0x8AB7 = .ok (.subn 10 11) ∧ decodeWord 0x8ABE = .ok (.shl 10 11) ∧
    decodeWord 0xC0FF = .ok (.rnd 0 0xFF) := by decide

theorem test_decode_index_display_keys :
    decodeWord 0xA200 = .ok (.ldI 0x200) ∧ decodeWord 0xD125 = .ok (.drw 1 2 5) ∧ decodeWord 0xE09E = .ok (.skp 0) ∧
    decodeWord 0xEFA1 = .ok (.sknp 15) ∧ decodeWord 0xF107 = .ok (.ldVxDT 1) ∧ decodeWord 0xF30A = .ok (.ldVxK 3) ∧
    decodeWord 0xF015 = .ok (.ldDTVx 0) ∧ decodeWord 0xF218 = .ok (.ldSTVx 2) ∧ decodeWord 0xF21E = .ok (.addI 2) ∧
    decodeWord 0xF029 = .ok (.ldF 0) ∧ decodeWord 0xF033 = .ok (.ldB 0) ∧ decodeWord 0xF255 = .ok (.ldMemVx 2) ∧
    decodeWord 0xF365 = .ok (.ldVxMem 3) := by decide

theorem test_decode_rejects :
    decodeWord 0x512F = .error (.illegal5 15) ∧ decodeWord 0x800F = .error (.illegal8 15) ∧
    decodeWord 0x9001 = .error (.illegal9 1) ∧ decodeWord 0xE1A2 = .error (.illegalE 0xA2) ∧
    decodeWord 0xF085 = .error (.illegalF 0x85) ∧ decode [0x12] = .error .truncated := by decide

/-- The bytes 12 34 are `JP 0x234`, not 0x3412 (V-FETCH); the host numbers the same word 0x1234. -/
theorem test_big_endian : decode [0x12, 0x34, 0x56] = .ok (.jp 0x234, [0x56]) ∧
    decodeTableWord 16 0x1234 = some (.jp 0x234) ∧ encodeBytes (.jp 0x234) = [0x12, 0x34] := by decide

/-! ### One tick on a small state -/

/-- Reset with one instruction word at 0x200. -/
def word (op : Word) : State := State.reset.placeWord op

/-- Registers set in turn. -/
def regs (s : State) : List (Reg × Byte) → State
  | [] => s
  | (x, v) :: rest => regs (s.setReg x v) rest

/-- One tick that succeeds: what `f` reads from the state it leaves. -/
def okRead {α : Type} (s : State) (f : State → α) : Option α :=
  match tick s with
  | .ok t => some (f t)
  | .err _ _ => none
  | .refused _ => none

/-- One tick that fails: the error, and what `f` reads from the state it leaves. -/
def errRead {α : Type} (s : State) (f : State → α) : Option (Fault × α) :=
  match tick s with
  | .ok _ => none
  | .err e t => some (e, f t)
  | .refused _ => none

/-- A sample with exactly the listed keys down. -/
def keysDown (l : List (Fin 16)) (rnd : Byte) : TickInput := { keys := Vector.ofFn (fun k => l.contains k), rnd := rnd }

/-- A stack depth and one entry. -/
def withStack (s : State) (sp : Depth) (k : StackIndex) (w : StackWord) : State := { s with sp := sp, stack := s.stack.set k w }

-- V-CF
theorem test_sys : errRead (word 0x0000) (fun t => t.pc) = some (.invalidOpcode, 0x202) := by decide
theorem test_ret : okRead (withStack (word 0x00EE) 16 15 0xABC) (fun t => (t.pc, t.sp)) = some (0xABC, 15) := by decide
theorem test_ret_empty : errRead (word 0x00EE) (fun t => (t.pc, t.sp)) = some (.stackFault, 0x202, 0) := by decide
theorem test_jp : okRead (word 0x1ABC) (fun t => t.pc) = some 0xABC := by decide
theorem test_call : okRead (withStack (word 0x2300) 15 0 0) (fun t => (t.pc, t.sp, t.stack[15])) = some (0x300, 16, 0x202) := by
  decide
theorem test_call_full : errRead (withStack (word 0x2300) 16 0 0) (fun t => (t.pc, t.sp)) = some (.stackFault, 0x202, 16) := by
  decide
theorem test_jpV0 : okRead (regs (word 0xBFFF) [(0, 0xFF)]) (fun t => t.pc) = some 0x10FE := by decide
theorem test_jpV0_ignores_x : okRead (regs (word 0xB300) [(3, 0x44)]) (fun t => t.pc) = some 0x300 := by decide
theorem test_seImm : okRead (regs (word 0x332A) [(3, 0x2A)]) (fun t => t.pc) = some 0x204 := by decide
theorem test_seImm_not : okRead (regs (word 0x332B) [(3, 0x2A)]) (fun t => t.pc) = some 0x202 := by decide
theorem test_sneImm : okRead (regs (word 0x432A) [(3, 0x2A)]) (fun t => t.pc) = some 0x202 := by decide
theorem test_sneImm_skips : okRead (regs (word 0x432B) [(3, 0x2A)]) (fun t => t.pc) = some 0x204 := by decide
theorem test_seReg : okRead (regs (word 0x5120) [(1, 7), (2, 7)]) (fun t => t.pc) = some 0x204 := by decide
theorem test_seReg_not : okRead (regs (word 0x5120) [(1, 7), (2, 8)]) (fun t => t.pc) = some 0x202 := by decide
theorem test_sneReg : okRead (regs (word 0x9120) [(1, 7), (2, 8)]) (fun t => t.pc) = some 0x204 := by decide
theorem test_sneReg_not : okRead (regs (word 0x9120) [(1, 7), (2, 7)]) (fun t => t.pc) = some 0x202 := by decide

-- V-FETCH
theorem test_fetch_highest : okRead ({ (word 0).storeBytes 0xFFD [0x60, 0x07] with pc := 0xFFD } : State)
    (fun t => (t.reg 0, t.pc)) = some (7, 0xFFF) := by decide
theorem test_fetch_outside : errRead ({ word 0 with pc := 0xFFE } : State) (fun t => t.pc) = some (.outOfBounds, 0xFFE) := by decide

-- V-ALU
theorem test_ldImm : okRead (word 0x6FAB) (fun t => t.reg VF) = some 0xAB := by decide
theorem test_addImm : okRead (regs (word 0x7002) [(0, 0xFF), (15, 1)]) (fun t => (t.reg 0, t.reg VF)) = some (1, 1) := by decide
theorem test_addImm_VF : okRead (regs (word 0x7F01) [(15, 0xFF)]) (fun t => t.reg VF) = some 0 := by decide
theorem test_ldReg : okRead (regs (word 0x8120) [(2, 0x33)]) (fun t => (t.reg 1, t.reg 2)) = some (0x33, 0x33) := by decide
theorem test_or : okRead (regs (word 0x8121) [(1, 0x0F), (2, 0xA0), (15, 0x55)]) (fun t => (t.reg 1, t.reg VF)) =
    some (0xAF, 0x55) := by decide
theorem test_and : okRead (regs (word 0x8122) [(1, 0x3C), (2, 0x0F), (15, 0x55)]) (fun t => (t.reg 1, t.reg VF)) =
    some (0x0C, 0x55) := by decide
theorem test_xor : okRead (regs (word 0x8123) [(1, 0xFF), (2, 0x0F), (15, 0x55)]) (fun t => (t.reg 1, t.reg VF)) =
    some (0xF0, 0x55) := by decide
theorem test_addReg : okRead (regs (word 0x8124) [(1, 200), (2, 100)]) (fun t => (t.reg 1, t.reg VF)) = some (44, 1) := by decide
theorem test_addReg_flag_wins : okRead (regs (word 0x8F14) [(15, 0xF0), (1, 0x20)]) (fun t => t.reg VF) = some 1 := by decide
theorem test_sub : okRead (regs (word 0x8125) [(1, 5), (2, 10)]) (fun t => (t.reg 1, t.reg VF)) = some (0xFB, 0) := by decide
theorem test_sub_equal : okRead (regs (word 0x8125) [(1, 7), (2, 7)]) (fun t => (t.reg 1, t.reg VF)) = some (0, 1) := by decide
theorem test_shr : okRead (regs (word 0x8126) [(1, 1), (2, 0xF0)]) (fun t => (t.reg 1, t.reg 2, t.reg VF)) =
    some (0, 0xF0, 1) := by decide
theorem test_shr_VF : okRead (regs (word 0x8F26) [(15, 2)]) (fun t => t.reg VF) = some 0 := by decide
theorem test_subn : okRead (regs (word 0x8127) [(1, 10), (2, 5)]) (fun t => (t.reg 1, t.reg VF)) = some (0xFB, 0) := by decide
theorem test_subn_no_borrow : okRead (regs (word 0x8127) [(1, 5), (2, 10)]) (fun t => (t.reg 1, t.reg VF)) = some (5, 1) := by
  decide
theorem test_shl : okRead (regs (word 0x812E) [(1, 0x81)]) (fun t => (t.reg 1, t.reg VF)) = some (2, 1) := by decide
theorem test_shl_ignores_y : okRead (regs (word 0x812E) [(1, 1), (2, 0xF0)]) (fun t => (t.reg 1, t.reg VF)) = some (2, 0) := by
  decide
theorem test_rnd : okRead ((word 0xC30F).withInput (keysDown [] 0xB7)) (fun t => t.reg 3) = some 0x07 := by decide

-- V-MEM
theorem test_ldI : okRead (word 0xAFFF) (fun t => t.I) = some 0xFFF := by decide
theorem test_addI : okRead (regs ((word 0xF01E).setI 0xFFFF) [(0, 1), (15, 7)]) (fun t => (t.I, t.reg VF)) = some (0, 7) := by decide
theorem test_ldF : okRead (regs (word 0xF029) [(0, 0x0A)]) (fun t => t.I) = some 50 := by decide
theorem test_ldF_high : errRead (regs ((word 0xF029).setI 0x123) [(0, 0x10)]) (fun t => (t.I, t.pc)) =
    some (.outOfBounds, 0x123, 0x202) := by decide
theorem test_ldB : okRead (regs ((word 0xF033).setI 0xFFC) [(0, 123)]) (fun t => (t.byte 0xFFC, t.byte 0xFFD, t.byte 0xFFE)) =
    some (1, 2, 3) := by decide
theorem test_ldB_outside : errRead (regs ((word 0xF033).setI 0xFFD) [(0, 123)]) (fun t => (t.byte 0xFFD, t.byte 0xFFE)) =
    some (.outOfBounds, 0, 0) := by decide
theorem test_ldMemVx : okRead (regs ((word 0xF255).setI 0x400) [(0, 1), (1, 2), (2, 3), (3, 4)])
    (fun t => (t.byte 0x400, t.byte 0x401, t.byte 0x402, t.byte 0x403, t.I)) = some (1, 2, 3, 0, 0x400) := by decide
theorem test_ldMemVx_outside : errRead (regs ((word 0xF155).setI 0xFFE) [(0, 0xAB), (1, 0xCD)]) (fun t => t.byte 0xFFE) =
    some (.outOfBounds, 0) := by decide
theorem test_ldVxMem : okRead (regs (((word 0xF265).setI 0x300).storeBytes 0x300 [2, 5, 4, 9]) [(3, 0x77)])
    (fun t => (t.reg 0, t.reg 1, t.reg 2, t.reg 3, t.I)) = some (2, 5, 4, 0x77, 0x300) := by decide
/-- FF65 with I = 0 loads the first sixteen font bytes. -/
theorem test_ldVxMem_font : okRead (word 0xFF65) (fun t => (t.reg 0, t.reg 5, t.reg 9, t.reg 13, t.reg 15)) =
    some (0xF0, 0x20, 0x70, 0x80, 0xF0) := by decide

-- V-DISP
theorem test_cls : okRead ((word 0x00E0).setDisp (Display.clear.put 63 31 true)) (fun t => t.pixel 63 31) = some false := by decide
/-- D012 at (61, 31) with glyph 0: F0 on row 31 wraps to column 0, and 90 goes to row 0. -/
theorem test_drw_wraps : okRead (regs (word 0xD012) [(0, 61), (1, 31), (15, 9)])
    (fun t => [t.pixel 61 31, t.pixel 0 31, t.pixel 1 31, t.pixel 61 0, t.pixel 62 0, t.pixel 0 0, decide (t.reg VF = 0)]) =
    some [true, true, false, true, false, true, true] := by decide
/-- S5, second instance: cell (0,0) is on before; it goes off, and VF = 1. -/
theorem test_drw_collides : okRead ((word 0xD015).setDisp (Display.clear.put 0 0 true))
    (fun t => (t.pixel 0 0, t.pixel 3 1, t.reg VF)) = some (false, true, 1) := by decide

-- R211 to R216 (the rules' examples)
theorem test_ldVxDT : okRead ((word 0xF107).setDT 3) (fun t => t.reg 1) = some 3 := by decide
theorem test_ldDTVx : okRead (regs (word 0xF015) [(0, 3)]) (fun t => (t.DT, t.ST)) = some (3, 0) := by decide
theorem test_ldSTVx : okRead (regs (word 0xF218) [(2, 0x10)]) (fun t => (t.DT, t.ST)) = some (0, 0x10) := by decide
theorem test_skp : okRead (regs ((word 0xE09E).withInput (keysDown [5] 0)) [(0, 5)]) (fun t => t.pc) = some 0x204 := by decide
theorem test_skp_up : okRead (regs ((word 0xE09E).withInput (keysDown [4] 0)) [(0, 5)]) (fun t => t.pc) = some 0x202 := by decide
theorem test_sknp : okRead (regs ((word 0xE0A1).withInput (keysDown [5] 0)) [(0, 5)]) (fun t => t.pc) = some 0x202 := by decide
theorem test_sknp_up : okRead (regs ((word 0xE0A1).withInput (keysDown [] 0)) [(0, 5)]) (fun t => t.pc) = some 0x204 := by decide
theorem test_ldVxK : okRead ((word 0xF30A).withInput (keysDown [12, 7] 0)) (fun t => (t.reg 3, t.pc)) = some (7, 0x202) := by decide
theorem test_ldVxK_waits : okRead (regs (word 0xF30A) [(3, 9)]) (fun t => (t.reg 3, t.pc)) = some (9, 0x200) := by decide

-- The host's operations (S3, S8) and the reset bytes
theorem test_decrementTimers : ((decrementTimers ((State.reset.setDT 1).setST 0)).stateLeft.map (fun t => (t.DT, t.ST))) =
    some (0, 0) := by decide
theorem test_load : ((load [0xAA] State.reset).stateLeft.map (fun t => (t.byte 0x1FF, t.byte 0x200, t.byte 0x201, t.pc))) =
    some (0, 0xAA, 0, 0x200) := by decide
theorem test_glyph_bytes : (State.reset.byte 0, State.reset.byte 9, State.reset.byte 79, State.reset.byte 80) =
    (0xF0, 0x70, 0x80, 0) := by decide
/-- A tick before any load fetches 0x0000 at 0x200 (R264). -/
theorem test_first_tick_of_reset : errRead State.reset (fun t => t.pc) = some (.invalidOpcode, 0x202) := by decide
/-- Writing back what an unlisted address reads as takes the entry away. -/
theorem test_memory_is_canonical : ((State.reset.storeBytes 5 [0x11, 0x60]).mem, ((State.reset.storeBytes 5 [0x11]).storeBytes 5
    [0x20]).mem) = ([(5, 0x11)], []) := by decide

/-! ### Witnesses: data that meet the hypotheses of each statement -/

theorem witness_well_formed : (Instr.sys 0x0E1).wellFormed = true ∧ (Instr.sys 0xFFF).wellFormed = true ∧
    (Instr.drw 15 15 15).wellFormed = true ∧ (Instr.addReg 0 15).wellFormed = true ∧ (Instr.ldVxMem 15).wellFormed = true := by
  decide

theorem witness_decodes : decodeWord 0x0000 = .ok (.sys 0) ∧ decodeWord 0xFF65 = .ok (.ldVxMem 15) ∧
    decodeWord 0xDFFF = .ok (.drw 15 15 15) := by decide

/-- A word of the first row, one of the last, one of both row 2 and row 3, and one of no row. -/
theorem witness_table : (∃ r, opcodeTable.find? (fun r => r.fits 0x00E0) = some r) ∧
    (∃ r, opcodeTable.find? (fun r => r.fits 0xFF65) = some r) ∧ (∃ r, opcodeTable.find? (fun r => r.fits 0x00EE) = some r) ∧
    opcodeTable.find? (fun r => r.fits 0xFFFF) = none := ⟨⟨_, rfl⟩, ⟨_, rfl⟩, ⟨_, rfl⟩, rfl⟩

/-- The first and the last word of each row of R96. -/
theorem witness_illegal : illegalWord 0x0000 ∧ illegalWord 0x0FFF ∧ illegalWord 0x5001 ∧ illegalWord 0x5FFF ∧
    illegalWord 0x8008 ∧ illegalWord 0x8FFF ∧ illegalWord 0x9001 ∧ illegalWord 0x9FFF ∧ illegalWord 0xE000 ∧
    illegalWord 0xEFFF ∧ illegalWord 0xF000 ∧ illegalWord 0xFFFF := by
  refine ⟨?_, ?_, ?_, ?_, ?_, ?_, ?_, ?_, ?_, ?_, ?_, ?_⟩ <;> (unfold illegalWord; decide)

theorem witness_legal : ¬illegalWord 0x00E0 ∧ ¬illegalWord 0x00EE ∧ ¬illegalWord 0x5FF0 ∧ ¬illegalWord 0x8FF7 ∧
    ¬illegalWord 0x8FFE ∧ ¬illegalWord 0x9FF0 ∧ ¬illegalWord 0xEFA1 ∧ ¬illegalWord 0xFF65 := by
  refine ⟨?_, ?_, ?_, ?_, ?_, ?_, ?_, ?_⟩ <;> (unfold illegalWord; decide)

theorem witness_fetched : fetch (word 0x0000) = .ok 0x0000 ∧ fetch (word 0x5FFF) = .ok 0x5FFF ∧
    fetch (word 0x800D) = .ok 0x800D ∧ fetch (word 0x9AB1) = .ok 0x9AB1 ∧ fetch (word 0xE09F) = .ok 0xE09F ∧
    fetch (word 0xF0FF) = .ok 0xF0FF := by decide

/-- The masks and match values of the rows that a statement's `EncodedBy` reads, at the first word or the last. -/
theorem witness_encoded_by_top_nibble : ∀ d ∈ [0x1, 0x2, 0x3, 0x4, 0x6, 0x7, 0xA, 0xB, 0xC, 0xD],
    (BitVec.ofNat 16 (d * 4096) : Word) &&& 0xF000 = BitVec.ofNat 16 (d * 4096) ∧
    (BitVec.ofNat 16 (d * 4096 + 4095) : Word) &&& 0xF000 = BitVec.ofNat 16 (d * 4096) := by decide

theorem witness_encoded_by_selector : (∀ d ∈ [0x5000, 0x8000, 0x8001, 0x8002, 0x8003, 0x8004, 0x8005, 0x8006, 0x8007, 0x800E,
    0x9000], (BitVec.ofNat 16 (d + 0xFF0) : Word) &&& 0xF00F = BitVec.ofNat 16 d) ∧
    ∀ d ∈ [0xE09E, 0xE0A1, 0xF007, 0xF00A, 0xF015, 0xF018, 0xF01E, 0xF029, 0xF033, 0xF055, 0xF065],
      (BitVec.ofNat 16 (d + 0xF00) : Word) &&& 0xF0FF = BitVec.ofNat 16 d := by decide

/-- With a tick listed, at the highest address that can be fetched. -/
theorem witness_step : ∃ s s' input, State.nextMove s = (.tick input, s') ∧ s.pc.toNat + 1 < Config.memSize ∧
    decodeWord (wordOfBytes (s.byte s.pc.toNat) (s.byte (s.pc.toNat + 1))) = .ok (.ldImm 0 7) ∧ s.pc = 0xFFD :=
  let s : State := { State.reset.storeBytes 0xFFD [0x60, 0x07] with pc := 0xFFD }
  ⟨{ s with host := { s.host with pending := [.tick (keysDown [3] 9)] } }, _, keysDown [3] 9, rfl, by decide, by decide, rfl⟩

/-- With the tick that `placeWord` lists, whose inputs are free. -/
theorem witness_step_free_input : ∃ s' input, State.nextMove (word 0x1200) = (.tick input, s') ∧
    (word 0x1200).pc.toNat + 1 < Config.memSize ∧ decodeWord (wordOfBytes ((word 0x1200).byte 0x200) ((word 0x1200).byte 0x201)) =
      .ok (.jp 0x200) := ⟨_, _, rfl, by decide, by decide⟩

/-- `placeWord` lists a tick before the calls that were listed, unless one stands there. -/
theorem test_place_word_drops_no_call : (({ State.reset with host := { HostSide.fresh with pending := [.display] } } :
      State).placeWord 0x1200).host.pending = [.tick (freeInput 0), .display] ∧
    (({ State.reset with host := { HostSide.fresh with pending := [.tick (keysDown [3] 9)] } } :
      State).placeWord 0x1200).host.pending = [.tick (keysDown [3] 9)] := ⟨rfl, rfl⟩

theorem witness_host_call : ({ State.reset with host := { HostSide.fresh with pending := [.display, .construct] } } : State).host.pending =
    [.display, .construct] ∧ State.reset.host.pending = [] := ⟨rfl, rfl⟩

/-- Both sides of the fetch bound, with a word that decodes and one that does not. -/
theorem witness_fetch_bound : Config.memSize ≤ ({ State.reset with pc := 0xFFE } : State).pc.toNat + 1 ∧
    ({ State.reset with pc := 0xFFD } : State).pc.toNat + 1 < Config.memSize ∧ decodeWord 0x0000 = .ok (.sys 0) ∧
    fetch (word 0xF000) = .ok 0xF000 ∧ decodeWord 0xF000 = .error (.illegalF 0) := by decide

/-- A failed tick of each kind of R116. -/
theorem witness_failed_tick : (∃ t, tick ({ State.reset with pc := 0xFFE } : State) = .err .outOfBounds t) ∧
    (∃ t, tick (word 0xF000) = .err .invalidOpcode t) ∧ (∃ t, tick (word 0x00EE) = .err .stackFault t) ∧
    (∃ t, tick ((word 0xF065).setI 0xFFF) = .err .outOfBounds t) := ⟨⟨_, rfl⟩, ⟨_, rfl⟩, ⟨_, rfl⟩, ⟨_, rfl⟩⟩

/-- A word is fetched only if it is the one that stands at pc. -/
theorem fetches_unique {s : State} {op : Word} {i j : Instr} (hf : fetch s = .ok op) (hd : decodeWord op = .ok i)
    (h : fetches s j) : j = i := by
  obtain ⟨op', hf', hd'⟩ := h
  rw [hf] at hf'; cases hf'
  rw [hd] at hd'; cases hd'; rfl

/-- Two different samples before an instruction that reads none of them, and two that agree on the keys before one that
reads them. -/
theorem witness_inputs : (∀ i, fetches (word 0x1200) i → (readsKeys i → (keysDown [1] 2).keys = (keysDown [3] 4).keys) ∧
      (readsRnd i → (keysDown [1] 2).rnd = (keysDown [3] 4).rnd)) ∧
    (∀ i, fetches (word 0xE09E) i → (readsKeys i → (keysDown [1] 2).keys = (keysDown [1] 4).keys) ∧
      (readsRnd i → (keysDown [1] 2).rnd = (keysDown [1] 4).rnd)) := by
  constructor
  · intro i h
    obtain rfl := fetches_unique (op := 0x1200) (i := .jp 0x200) (by decide) (by decide) h
    simp [readsKeys, readsRnd]
  · intro i h
    obtain rfl := fetches_unique (op := 0xE09E) (i := .skp 0) (by decide) (by decide) h
    exact ⟨fun _ => rfl, by simp [readsRnd]⟩

theorem witness_timers_kept : (∃ t, (tick (word 0x6007)).stateLeft = some t) ∧ (∀ x, ¬fetches (word 0x6007) (.ldDTVx x)) ∧
    ∀ x, ¬fetches (word 0x6007) (.ldSTVx x) := by
  refine ⟨⟨_, rfl⟩, ?_, ?_⟩ <;> intro x h <;> cases fetches_unique (op := 0x6007) (i := .ldImm 0 7) (by decide) (by decide) h

/-- Instructions of every shape that complete. -/
theorem witness_next : (∃ t, exec (.addReg 1 2) State.reset = .next t) ∧ (∃ t, exec (.ldMemVx 15) State.reset = .next t) ∧
    (∃ t, exec (.call 0xFFF) State.reset = .next t) ∧ (∃ t, exec (.drw 0 0 15) State.reset = .next t) ∧
    (∃ t, exec (.ldVxK 3) State.reset = .next t) := ⟨⟨_, rfl⟩, ⟨_, rfl⟩, ⟨_, rfl⟩, ⟨_, rfl⟩, ⟨_, rfl⟩⟩

theorem witness_sys : (0x0FFF : Word) &&& 0xF000 = 0 ∧ (0x0FFF : Word) ≠ 0x00E0 ∧ (0x0FFF : Word) ≠ 0x00EE ∧
    fetch (word 0x0FFF) = .ok 0x0FFF ∧ decodeWord 0x0FFF = .ok (.sys 0xFFF) := by decide

/-- The stack depths at which RET and CALL change their answer. -/
theorem witness_stack : State.reset.sp.val = 0 ∧ 0 < (withStack State.reset 1 0 0x206).sp.val ∧
    (withStack State.reset 16 15 0x206).sp.val = 16 ∧ (withStack State.reset 15 0 0).sp.val < 16 := by decide

theorem witness_skip : (regs State.reset [(15, 1)]).reg 15 = 1 ∧ (regs State.reset [(15, 1)]).reg 15 ≠ 0xFF ∧
    d1 0x5FFF = 5 ∧ d4 0x5FFF ≠ 0 ∧ d1 0x9001 = 9 ∧ d4 0x9001 ≠ 0 := by decide

theorem witness_call_ret :
    let s : State := withStack (State.reset.storeBytes 0x200 [0x22, 0x04, 0x00, 0x00, 0x00, 0xEE]) 15 0 0
    s.sp.val < 16 ∧ holds s s.pc.toNat (.call 0x204) ∧ holds s (0x204 : Addr).toNat .ret := by
  unfold holds; decide

/-- The digits 15 and 16, for the glyph and key numbers. -/
theorem witness_digit : ((regs State.reset [(0, 15)]).reg 0).toNat ≤ 15 ∧ 15 < ((regs State.reset [(0, 16)]).reg 0).toNat ∧
    ((regs State.reset [(0, 15)]).reg 0).toNat = (15 : Fin 16).val := by decide

/-- The last address from which each memory instruction stays inside memory, and the first from which it does not. -/
theorem witness_bounds : (State.reset.setI 0xFFC).I.toNat + 2 < Config.memSize ∧ Config.memSize ≤ (State.reset.setI 0xFFD).I.toNat + 2 ∧
    (State.reset.setI 0xFEF).I.toNat + (15 : Reg).val < Config.memSize ∧
    Config.memSize ≤ (State.reset.setI 0xFF0).I.toNat + (15 : Reg).val ∧
    (State.reset.setI 0xFFE).I.toNat + (0 : Reg).val < Config.memSize ∧ (2 : Nat) < 256 ∧ (0 : Reg) ≤ 15 := by decide

theorem witness_dump_fetched : ∃ t, exec (.ldMemVx 1) (regs (State.reset.setI 0x202) [(0, 0x12), (1, 0x06)]) = .next t ∧
    (1 : Reg).val = (0 : Reg).val + 1 ∧ (1 : Reg) ≤ 1 ∧ (t.setPc 0x202).mem = t.mem ∧
    (t.setPc 0x202).pc.toNat = (regs (State.reset.setI 0x202) [(0, 0x12), (1, 0x06)]).ea 0 := ⟨_, rfl, by decide, by decide, rfl, rfl⟩

/-- N = 0 with I far outside memory; the sprite's last byte at the top of memory and one past it. -/
theorem witness_drw_bounds : ((0 : Fin 16).val = 0 ∨ (State.reset.setI 0xFFFF).I.toNat + 0 - 1 < Config.memSize) ∧
    (State.reset.setI 0xFFE).I.toNat + (1 : Fin 16).val - 1 < Config.memSize ∧ 1 ≤ (2 : Fin 16).val ∧
    Config.memSize ≤ (State.reset.setI 0xFFE).I.toNat + (2 : Fin 16).val - 1 := by decide

/-- Glyph 0 at (0, 0): cell (0, 0) is under an on bit and (1, 1) is not; on a grid with (0, 0) on it collides. -/
theorem witness_sprite : spriteOn State.reset 0 1 5 0 0 ∧ ¬spriteOn State.reset 0 1 5 1 1 ∧
    (State.reset.setDisp (Display.clear.put 0 0 true)).pixel 0 0 = true := by
  unfold spriteOn; decide

theorem witness_no_collision : ¬∃ px py, spriteOn State.reset 0 1 5 px py ∧ State.reset.pixel px py = true := by
  rintro ⟨px, py, -, h⟩
  simp [State.pixel, State.reset, Display.get, Display.clear] at h

theorem witness_double_draw : ∃ t, exec (.drw 0 1 5) State.reset = .next t ∧ t.reg 0 = State.reset.reg 0 ∧
    t.reg 1 = State.reset.reg 1 := ⟨_, rfl, by decide, by decide⟩

/-- No key down; key 15 alone; keys 7 and 12, of which 7 is the lowest. -/
theorem witness_keys : (∀ k : Fin 16, (keysDown [] 0).keys[k] = false) ∧ (keysDown [15] 0).keys[15] = true ∧
    (∀ j : Fin 16, j < 15 → (keysDown [15] 0).keys[j] = false) ∧ (keysDown [12, 7] 0).keys[7] = true ∧
    (∀ j : Fin 16, j < 7 → (keysDown [12, 7] 0).keys[j] = false) ∧ fetch (word 0xF30A) = .ok 0xF30A ∧
    decodeWord 0xF30A = .ok (.ldVxK 3) := by decide

/-- The longest ROM that fits, and the shortest that does not. -/
theorem witness_rom : (List.replicate 3583 (0xAA : Byte)).length ≤ Config.memSize - 0x200 ∧
    Config.memSize - 0x200 < (List.replicate 3584 (0xAA : Byte)).length := by
  rw [List.length_replicate, List.length_replicate]; decide

theorem witness_invariant : State.reset.Inv ∧ (∃ t, step (word 0x1200) = .next t) ∧ (word 0x1200).Inv ∧
    (∃ t, (operate .decrementTimers State.reset).stateLeft = some t) ∧ (∃ t, (tick (word 0xF000)).stateLeft = some t) := by
  refine ⟨⟨rfl, by decide, by decide⟩, ⟨_, rfl⟩, ⟨by decide, by decide, by decide⟩, ⟨_, rfl⟩, ⟨_, rfl⟩⟩

/-- A tick that succeeds, one that fails after the fetch, and one whose fetch fails, each from a state that meets the
invariant; the second state stands at the highest address a fetch reaches, the third just past it. -/
theorem witness_pc : ((word 0x3000).Inv ∧ fetch (word 0x3000) = .ok 0x3000 ∧ decodeWord 0x3000 = .ok (.seImm 0 0) ∧
      ∃ t, tick (word 0x3000) = .ok t) ∧
    (({ State.reset with pc := 0xFFD } : State).Inv ∧ fetch { State.reset with pc := 0xFFD } = .ok 0 ∧
      ∃ t, tick { State.reset with pc := 0xFFD } = .err .invalidOpcode t) ∧
    (({ State.reset with pc := 0xFFE } : State).Inv ∧ ∃ t, tick { State.reset with pc := 0xFFE } = .err .outOfBounds t) :=
  ⟨⟨⟨by decide, by decide, by decide⟩, by decide, by decide, ⟨_, rfl⟩⟩,
   ⟨⟨by decide, by decide, by decide⟩, by decide, ⟨_, rfl⟩⟩, ⟨⟨by decide, by decide, by decide⟩, ⟨_, rfl⟩⟩⟩

/-- Ticks that write pc in the other ways of R26: a jump with offset, a return, a key wait. -/
theorem witness_pc_writes : (regs (word 0xBFFF) [(0, 0xFF)]).Inv ∧ (∃ t, tick (regs (word 0xBFFF) [(0, 0xFF)]) = .ok t) ∧
    (withStack (word 0x00EE) 16 15 0xFFF).Inv ∧ (∃ t, tick (withStack (word 0x00EE) 16 15 0xFFF) = .ok t) ∧
    (word 0xF30A).Inv ∧ ∃ t, tick (word 0xF30A) = .ok t :=
  ⟨⟨by decide, by decide, by decide⟩, ⟨_, rfl⟩, ⟨by decide, by decide, by decide⟩, ⟨_, rfl⟩,
   ⟨by decide, by decide, by decide⟩, ⟨_, rfl⟩⟩

/-- Parked at 0x200, and at the last address the fetch reaches. -/
theorem witness_parked : (word 0x1200).parked ∧
    ({ State.reset.storeBytes 0xFFD [0x1F, 0xFD] with pc := 0xFFD } : State).parked :=
  ⟨⟨0x200, by decide, by decide, by decide⟩, ⟨0xFFD, by decide, by decide, by decide⟩⟩

end Sys2Proof.Tests
end

section
/-! The state after reset (10_state.md R40), read item by item; then what `construct` leaves. -/

namespace Sys2Proof.Machine

/-! ### Reads of the state after reset -/

@[simp] theorem State.reset_byte (a : Nat) : State.reset.byte a = resetByte a := rfl

@[simp] theorem State.reset_reg (j : Reg) : State.reset.reg j = 0 := Vector.getElem_replicate _

@[simp] theorem State.reset_stack (k : StackIndex) : State.reset.stack[k] = 0 := Vector.getElem_replicate _

@[simp] theorem State.reset_pixel (px : Column) (py : Row) : State.reset.pixel px py = false := Display.get_clear px py

end Sys2Proof.Machine

namespace Sys2Proof.Claims

open Sys2Proof.Machine

/-! ### The reset core -/

theorem isResetCore_reset : isResetCore State.reset := by
  refine ⟨fun a ha => ?font, fun a ha _ => ?zeros, State.reset_reg, rfl, rfl, rfl, State.reset_stack, rfl, rfl,
    State.reset_pixel⟩
  case font => rw [State.reset_byte, resetByte_font ha]
  case zeros => rw [State.reset_byte, resetByte_zero ha]

/-- R40's table speaks of the core alone: the host's side is free (log entry 9). -/
theorem isResetCore.withHost {t : State} (h : isResetCore t) (host : HostSide) : isResetCore { t with host := host } := h

/-- Settles O55: `construct` leaves the state after reset beside the host's own side, and that state meets every row of
R40's table. -/
theorem constructLeavesTheResetState : Obligations.ConstructLeavesTheResetState :=
  ⟨font_length.1, isResetCore_reset, fun s => ⟨_, rfl, isResetCore_reset.withHost s.host⟩⟩

end Sys2Proof.Claims
end

section
/-! The opcode's fields as numbers (30_encoding.md R83, R84): each is a run of the opcode's bits, read unsigned. -/

namespace Sys2Proof

open Sys2Proof.Machine

/-! ### Fields as numbers -/

@[simp] theorem fieldNNN_toNat (op : Word) : (fieldNNN op).toNat = op.toNat % 2 ^ 12 := BitVec.toNat_ofNat ..

@[simp] theorem fieldNN_toNat (op : Word) : (fieldNN op).toNat = op.toNat % 2 ^ 8 := BitVec.toNat_ofNat ..

@[simp] theorem fieldN_val (op : Word) : (fieldN op).val = op.toNat % 2 ^ 4 := rfl

@[simp] theorem fieldX_val (op : Word) : (fieldX op).val = op.toNat / 2 ^ 8 % 2 ^ 4 := rfl

@[simp] theorem fieldY_val (op : Word) : (fieldY op).val = op.toNat / 2 ^ 4 % 2 ^ 4 := rfl

/-- Twelve bits fit a word, so widening an address keeps its value. -/
@[simp] theorem addrWord_toNat (nnn : Addr) : (addrWord nnn).toNat = nnn.toNat :=
  BitVec.toNat_ofNat .. |>.trans (Nat.mod_eq_of_lt (nnn.isLt.trans (by decide)))

/-- Bits hi:lo of a word as arithmetic, the form the field lemmas above have. -/
theorem extractLsb_toNat_eq_div_mod (op : Word) (hi lo : Nat) :
    (op.extractLsb hi lo).toNat = op.toNat / 2 ^ lo % 2 ^ (hi - lo + 1) := by
  rw [BitVec.extractLsb_toNat, Nat.shiftRight_eq_div_pow]

/-- The low bits of a word are a remainder. -/
theorem extractLsb_zero_toNat (op : Word) (hi : Nat) : (op.extractLsb hi 0).toNat = op.toNat % 2 ^ (hi + 1) := by
  rw [extractLsb_toNat_eq_div_mod, Nat.pow_zero, Nat.div_one, Nat.sub_zero]

end Sys2Proof

namespace Sys2Proof.Claims

open Sys2Proof.Machine

/-! ### Fields and opcode bits -/

/-- Settles O6: each field and the bits it is taken from are the same quotient and remainder of the opcode, and an NNN
fits a word. -/
theorem fieldsAreTheOpcodeBits : Obligations.FieldsAreTheOpcodeBits := by
  intro op
  refine ⟨?nnn, ?nn, ?n, ?x, ?y, addrWord_toNat _⟩
  case nnn => rw [fieldNNN_toNat, extractLsb_zero_toNat]
  case nn => rw [fieldNN_toNat, extractLsb_zero_toNat]
  case n => rw [fieldN_val, extractLsb_zero_toNat]
  case x => rw [fieldX_val, extractLsb_toNat_eq_div_mod]
  case y => rw [fieldY_val, extractLsb_toNat_eq_div_mod]

end Sys2Proof.Claims
end

section
/-! A tick, stage by stage: fetch, decode, execute (40_execution_cycle.md R110 to R114). -/

namespace Sys2Proof.Machine

/-! ### Fetch -/

theorem fetch_of_inside {s : State} (h : s.pc.toNat + 1 < Config.memSize) :
    fetch s = .ok (wordOfBytes (s.byte s.pc.toNat) (s.byte (s.pc.toNat + 1))) := by
  rw [fetch_eq, if_pos h]

theorem fetch_of_outside {s : State} (h : Config.memSize ≤ s.pc.toNat + 1) : fetch s = .error .outOfBounds := by
  rw [fetch_eq, if_neg (Nat.not_lt.mpr h)]

theorem fetch_succeeds_iff {s : State} : (∃ op, fetch s = .ok op) ↔ s.pc.toNat + 1 < Config.memSize := by
  refine ⟨fun ⟨op, hf⟩ => ?_, fun h => ⟨_, fetch_of_inside h⟩⟩
  by_contra hout
  rw [fetch_of_outside (Nat.not_lt.mp hout)] at hf
  cases hf

theorem fetch_error_outOfBounds {s : State} {e : Fault} (h : fetch s = .error e) : e = .outOfBounds := by
  rw [fetch_eq] at h
  split at h
  · cases h
  · exact (Except.error.inj h).symm

/-! ### A tick, by the stage at which it ends -/

theorem tick_of_fetch_error {s : State} {e : Fault} (hf : fetch s = .error e) : tick s = .err e s := by
  rw [tick, hf]

theorem tick_of_decode_error {s : State} {op : Word} {d : DecodeError} (hf : fetch s = .ok op)
    (hd : decodeWord op = .error d) : tick s = .err .invalidOpcode s.advancePc := by
  simp only [tick, hf, hd]

theorem tick_of_decode_ok {s : State} {op : Word} {i : Instr} (hf : fetch s = .ok op) (hd : decodeWord op = .ok i) :
    tick s = execute i s.advancePc := by
  simp only [tick, hf, hd]

end Sys2Proof.Machine

namespace Sys2Proof.Claims

open Sys2Proof.Machine

/-- Settles O9: the bound on pc decides whether the fetch fails, and with both bytes inside memory decode decides the
rest. -/
theorem fetchChecksBothBytesThenAdvancesPc : Obligations.FetchChecksBothBytesThenAdvancesPc := by
  intro s
  refine ⟨fun hout => ?outside, fun hin => ?inside, ?bound⟩
  case outside => exact tick_of_fetch_error (fetch_of_outside hout)
  case inside =>
    have hf := fetch_of_inside hin
    exact ⟨_, wordOfBytes_toNat _ _, hf, fun _ => tick_of_decode_ok hf, fun _ => tick_of_decode_error hf⟩
  case bound =>
    rw [fetch_succeeds_iff, Config.memSize]
    omega

end Sys2Proof.Claims
end

section
/-! When an instruction raises which error (60_exceptions.md R230). -/

namespace Sys2Proof.Machine

/-! ### The instructions that check first -/

/-- A range check fails when there is a byte to touch and the last one lies outside memory. -/
theorem checkRange_fault_iff_last {a n : Nat} {s : State} {e : Fault} :
    checkRange a n (.next s) = .fault e ↔ e = .outOfBounds ∧ 1 ≤ n ∧ Config.memSize ≤ a + n - 1 := by
  rw [checkRange_fault_iff, and_comm]
  exact and_congr_right fun _ => by omega

theorem execRet_fault_iff {s : State} {e : Fault} : execRet s = .fault e ↔ e = .stackFault ∧ s.sp.val = 0 := by
  rw [← State.pop_error_iff]
  unfold execRet raise
  split <;> simp_all

theorem execCall_fault_iff {nnn : Addr} {s : State} {e : Fault} :
    execCall nnn s = .fault e ↔ e = .stackFault ∧ s.sp.val = 16 := by
  rw [← State.push_error_iff (w := s.pc)]
  unfold execCall raise
  split <;> simp_all

/-- The form of the instructions with a number operand (45_timers_keys.md R210, 43_index_memory.md R183): check the
number, then change the state. -/
def onDigit (n : Nat) (v : Byte) (done : Fin n → State) : Result :=
  match digit n v with
  | .ok d => .next (done d)
  | .error e => raise e

theorem execSkp_eq (x : Reg) (s : State) : execSkp x s = onDigit 16 (s.reg x) (fun k => s.skipIf (s.keyDown k)) := by
  unfold execSkp onDigit
  cases digit 16 (s.reg x) <;> rfl

theorem execSknp_eq (x : Reg) (s : State) :
    execSknp x s = onDigit 16 (s.reg x) (fun k => s.skipIf (!s.keyDown k)) := by
  unfold execSknp onDigit
  cases digit 16 (s.reg x) <;> rfl

theorem execLdF_eq (x : Reg) (s : State) : execLdF x s = onDigit 16 (s.reg x) (fun d => s.setI (glyphAddr d)) := by
  unfold execLdF onDigit
  cases digit 16 (s.reg x) <;> rfl

theorem onDigit_fault_iff {n : Nat} {v : Byte} {done : Fin n → State} {e : Fault} :
    onDigit n v done = .fault e ↔ e = .outOfBounds ∧ n ≤ v.toNat := by
  rw [← digit_error_iff, onDigit]
  split <;> simp_all [raise]

theorem onDigit_next_iff {n : Nat} {v : Byte} {done : Fin n → State} {t : State} :
    onDigit n v done = .next t ↔ ∃ d, v.toNat = d.val ∧ done d = t := by
  simp only [← digit_ok_iff, onDigit]
  split <;> simp_all [raise]

end Sys2Proof.Machine

namespace Sys2Proof.Claims

open Sys2Proof.Machine

/-- Each instruction raises exactly the error, and exactly in the states, that R230's table gives it. -/
theorem exec_fault_iff {i : Instr} {s : State} {e : Fault} : exec i s = .fault e ↔ raises i s e := by
  cases i with
  | sys nnn => exact ⟨fun h => (Host.Outcome.fault.inj h).symm, fun h => congrArg Host.Outcome.fault h.symm⟩
  | ret => exact execRet_fault_iff
  | call nnn => exact execCall_fault_iff
  | skp x => rw [exec, execSkp_eq, onDigit_fault_iff]; rfl
  | sknp x => rw [exec, execSknp_eq, onDigit_fault_iff]; rfl
  | ldF x => rw [exec, execLdF_eq, onDigit_fault_iff]; rfl
  | drw x y n => simp only [exec, execDrw, raises, checkRange_fault_iff_last, State.ea, Nat.add_zero]
  | ldB x => simp [exec, execLdB, raises, checkRange_fault_iff_last, State.ea]
  | ldMemVx x => simp [exec, execLdMemVx, raises, checkRange_fault_iff_last, State.ea]
  | ldVxMem x => simp [exec, execLdVxMem, raises, checkRange_fault_iff_last, State.ea]
  | _ => exact ⟨nofun, False.elim⟩

end Sys2Proof.Claims
end

section
/-! The illegal words of 30_encoding.md R96 are the words that decode to no executable instruction. -/

namespace Sys2Proof.Claims

open Sys2Proof.Machine

/-! ### Executable answers of the decoder -/

/-- The decoder answers an instruction that a tick can execute: any but SYS (41_control_flow.md R131). -/
def executable (r : Except DecodeError Instr) : Prop := ∃ i, r = .ok i ∧ ∀ nnn, i ≠ .sys nnn

@[simp] theorem executable_ok_iff {i : Instr} : executable (.ok i) ↔ ∀ nnn, i ≠ .sys nnn :=
  ⟨fun ⟨_, hj, hne⟩ => Except.ok.inj hj ▸ hne, fun hne => ⟨i, rfl, hne⟩⟩

@[simp] theorem not_executable_error (d : DecodeError) : ¬executable (.error d) := fun ⟨_, h, _⟩ => nomatch h

/-! ### The groups of rows that select further -/

theorem decode0_eq_sys_iff {op : Word} : (∃ nnn, decode0 op = .sys nnn) ↔ op ≠ 0x00E0 ∧ op ≠ 0x00EE := by
  unfold decode0
  split_ifs <;> simp_all

/-- The form of the rows 5XY0 and 9XY0, which decode under a condition. -/
theorem executable_if_iff {c : Prop} [Decidable c] {i : Instr} {d : DecodeError} :
    executable (if c then .ok i else .error d) ↔ c ∧ ∀ nnn, i ≠ .sys nnn := by
  split_ifs with hc <;> simp [hc]

theorem not_executable_decode8_iff {op : Word} :
    ¬executable (decode8 op) ↔ d4 op ∈ [0x8, 0x9, 0xA, 0xB, 0xC, 0xD, 0xF] := by
  have hlt : d4 op < 16 := Nat.mod_lt _ (by decide)
  unfold decode8
  interval_cases d4 op <;> simp

theorem executable_decodeE_iff {op : Word} : executable (decodeE op) ↔ lowByte op ∈ [0x9E, 0xA1] := by
  unfold decodeE
  split <;> simp_all

theorem executable_decodeF_iff {op : Word} :
    executable (decodeF op) ↔ lowByte op ∈ [0x07, 0x0A, 0x15, 0x18, 0x1E, 0x29, 0x33, 0x55, 0x65] := by
  unfold decodeF
  split <;> simp_all

/-! ### Every word -/

/-- R96's list is complete and exact: along the values of the top nibble, where the rows that select further go by the
lemma of their group and every other row decodes. -/
theorem illegalWord_iff_not_executable {op : Word} : illegalWord op ↔ ¬executable (decodeWord op) := by
  have hlt : d1 op < 16 := d1_lt op
  unfold illegalWord decodeWord
  interval_cases d1 op <;> simp [decode0_eq_sys_iff, executable_if_iff, not_executable_decode8_iff, executable_decodeE_iff,
    executable_decodeF_iff]

theorem illegalWord_of_decode_error {op : Word} {d : DecodeError} (h : decodeWord op = .error d) : illegalWord op := by
  rw [illegalWord_iff_not_executable, h]
  exact not_executable_error d

theorem illegalWord_iff_sys {op : Word} {i : Instr} (h : decodeWord op = .ok i) :
    illegalWord op ↔ ∃ nnn, i = .sys nnn := by
  rw [illegalWord_iff_not_executable, h, executable_ok_iff]
  push Not
  rfl

end Sys2Proof.Claims
end

section
/-! The state a failed tick leaves (40_execution_cycle.md R116). -/

namespace Sys2Proof.Claims

open Sys2Proof.Machine

/-- The errors of the executable instructions: the stack's and the bounds'. -/
theorem raises_stack_or_bounds {i : Instr} {s : State} {e : Fault} (h : raises i s e) (hi : ∀ nnn, i ≠ .sys nnn) :
    e = .stackFault ∨ e = .outOfBounds := by
  cases i with
  | sys nnn => exact absurd rfl (hi nnn)
  | ret | call => exact .inl h.1
  | drw | ldB | ldMemVx | ldVxMem | skp | sknp | ldF => exact .inr h.1
  | _ => exact h.elim

/-- Settles O10: the rows of R116's table are the stages a tick can fail in, where SYS, which decodes and then raises,
stands in the row of the illegal words. -/
theorem failedTickLeavesTheStateOfR116 : Obligations.FailedTickLeavesTheStateOfR116 := by
  intro s t e h
  obtain ⟨hf, rfl⟩ | ⟨op, d, hf, hd, rfl, rfl⟩ | ⟨op, i, hf, hd, hx, rfl⟩ := tick_err_cases h
  case inl => exact .inl ⟨fun op hok => (nomatch hf.symm.trans hok), fetch_error_outOfBounds hf, rfl⟩
  case inr.inl => exact .inr (.inl ⟨op, hf, illegalWord_of_decode_error hd, rfl, rfl⟩)
  case inr.inr =>
    have hr : raises i s.advancePc e := exec_fault_iff.mp hx
    by_cases hsys : ∃ nnn, i = .sys nnn
    · have hill : illegalWord op := (illegalWord_iff_sys hd).mpr hsys
      obtain ⟨nnn, rfl⟩ := hsys
      exact .inr (.inl ⟨op, hf, hill, hr, rfl⟩)
    · have hlegal : ¬illegalWord op := fun hill => hsys ((illegalWord_iff_sys hd).mp hill)
      exact .inr (.inr ⟨op, hf, hlegal, raises_stack_or_bounds hr (not_exists.mp hsys), rfl⟩)

end Sys2Proof.Claims
end

section
/-! The frame of every instruction: what completes has written no more than 10_state.md R41 lists. -/

namespace Sys2Proof.Machine

/-! ### Frames of the updates that several instructions make -/

theorem State.retreatPc_frame (s : State) : FrameExcept s s.retreatPc (fun p => p = .pc) := s.setPc_frame _

/-- The bytes a store at I writes, by the address function of the instructions. -/
theorem State.storeBytes_ea_frame (s : State) (bs : List Byte) :
    FrameExcept s (s.storeBytes (s.ea 0) bs) (fun p => ∃ k < bs.length, p = .byte (s.ea k)) :=
  s.storeBytes_frame (s.ea 0) bs

end Sys2Proof.Machine

namespace Sys2Proof.Claims

open Sys2Proof.Machine

/-! ### The instructions that check first -/

theorem execRet_frame {s t : State} (h : execRet s = .next t) : FrameExcept s t (writes .ret s) := by
  unfold execRet raise at h
  split at h
  · rename_i hpop
    cases h
    exact (State.pop_frame hpop).trans (State.setPc_frame _ _)
  · cases h

theorem execCall_frame {nnn : Addr} {s t : State} (h : execCall nnn s = .next t) :
    FrameExcept s t (writes (.call nnn) s) := by
  unfold execCall raise at h
  split at h
  · rename_i hpush
    cases h
    exact ((State.push_frame hpush).trans (State.setPc_frame _ _)).weaken fun p hp => by
      simp only [writes]
      tauto
  · cases h

theorem execDrw_frame {x y : Reg} {n : Fin 16} {s t : State} (h : execDrw x y n s = .next t) :
    FrameExcept s t (writes (.drw x y n) s) := by
  obtain ⟨-, rfl⟩ := checkRange_next_iff.mp h
  exact ((State.setDisp_frame s _).trans (State.setReg_frame _ _ _)).weaken fun _ => Or.symm

theorem execLdB_frame {x : Reg} {s t : State} (h : execLdB x s = .next t) : FrameExcept s t (writes (.ldB x) s) := by
  obtain ⟨-, rfl⟩ := checkRange_next_iff.mp h
  exact s.storeBytes_ea_frame _

theorem execLdMemVx_frame {x : Reg} {s t : State} (h : execLdMemVx x s = .next t) :
    FrameExcept s t (writes (.ldMemVx x) s) := by
  obtain ⟨-, rfl⟩ := checkRange_next_iff.mp h
  rw [State.afterBlock_eq]
  refine (s.storeBytes_ea_frame _).weaken ?_
  rintro p ⟨k, hk, rfl⟩
  exact ⟨k, by simpa [Nat.lt_succ_iff] using hk, rfl⟩

theorem execLdVxMem_frame {x : Reg} {s t : State} (h : execLdVxMem x s = .next t) :
    FrameExcept s t (writes (.ldVxMem x) s) := by
  obtain ⟨-, rfl⟩ := checkRange_next_iff.mp h
  rw [State.afterBlock_eq]
  refine (s.loadRegs_frameExcept _ _ x.isLt).weaken ?_
  rintro p ⟨k, hk, rfl⟩
  exact ⟨k, Nat.lt_succ_iff.mp hk, rfl⟩

theorem onDigit_frame {n : Nat} {v : Byte} {done : Fin n → State} {s t : State} {p : Part → Prop}
    (hdone : ∀ d, FrameExcept s (done d) p) (h : onDigit n v done = .next t) : FrameExcept s t p := by
  obtain ⟨d, -, rfl⟩ := onDigit_next_iff.mp h
  exact hdone d

theorem execLdVxK_frame {x : Reg} {s t : State} (h : execLdVxK x s = .next t) :
    FrameExcept s t (writes (.ldVxK x) s) := by
  cases h
  split
  · exact s.retreatPc_frame.weaken fun _ => .inr
  · exact (s.setReg_frame x _).weaken fun _ => .inl

/-! ### Every instruction -/

theorem exec_frame {i : Instr} {s t : State} (h : exec i s = .next t) : FrameExcept s t (writes i s) := by
  cases i with
  | ret => exact execRet_frame h
  | call nnn => exact execCall_frame h
  | drw x y n => exact execDrw_frame h
  | ldB x => exact execLdB_frame h
  | ldMemVx x => exact execLdMemVx_frame h
  | ldVxMem x => exact execLdVxMem_frame h
  | skp x => exact onDigit_frame (fun _ => s.skipIf_frame _) ((execSkp_eq x s).symm.trans h)
  | sknp x => exact onDigit_frame (fun _ => s.skipIf_frame _) ((execSknp_eq x s).symm.trans h)
  | ldF x => exact onDigit_frame (fun _ => s.setI_frame _) ((execLdF_eq x s).symm.trans h)
  | ldVxK x => exact execLdVxK_frame h
  | sys nnn => cases h
  | cls => cases h; exact s.setDisp_frame _
  | jp | jpV0 => cases h; exact s.setPc_frame _
  | seImm | sneImm | seReg | sneReg => cases h; exact s.skipIf_frame _
  | ldImm | addImm | ldReg | orReg | andReg | xorReg | rnd | ldVxDT => cases h; exact s.setReg_frame _ _
  | addReg | sub | shr | subn | shl => cases h; exact s.writeWithFlag_frame _ _ _
  | ldI | addI => cases h; exact s.setI_frame _
  | ldDTVx => cases h; exact s.setDT_frame _
  | ldSTVx => cases h; exact s.setST_frame _

/-! ### The timers -/

theorem writes_delayTimer_iff {i : Instr} {s : State} : writes i s .delayTimer ↔ ∃ x, i = .ldDTVx x := by
  cases i <;> simp [writes]

theorem writes_soundTimer_iff {i : Instr} {s : State} : writes i s .soundTimer ↔ ∃ x, i = .ldSTVx x := by
  cases i <;> simp [writes]

theorem exec_DT_of_ne {i : Instr} {s t : State} (h : exec i s = .next t) (hi : ∀ x, i ≠ .ldDTVx x) : t.DT = s.DT :=
  exec_frame h .delayTimer fun hw => not_exists.mpr hi (writes_delayTimer_iff.mp hw)

theorem exec_ST_of_ne {i : Instr} {s t : State} (h : exec i s = .next t) (hi : ∀ x, i ≠ .ldSTVx x) : t.ST = s.ST :=
  exec_frame h .soundTimer fun hw => not_exists.mpr hi (writes_soundTimer_iff.mp hw)

end Sys2Proof.Claims
end

section
/-! A tick's inputs (40_execution_cycle.md R111): replacing the sample in the state commutes with whatever reads nothing
of it that differs. -/

namespace Sys2Proof.Machine

variable (s : State) (b : TickInput)

/-! ### Updates of the state -/

theorem State.withInput_skipIf (c : Bool) : (s.withInput b).skipIf c = (s.skipIf c).withInput b := by cases c <;> rfl

theorem State.withInput_loadRegs (a n : Nat) : (s.withInput b).loadRegs a n = (s.loadRegs a n).withInput b := by
  induction n with
  | zero => rfl
  | succ n ih =>
    rw [State.loadRegs, ih, State.loadRegs]
    rfl

theorem State.withInput_push (w : StackWord) : (s.withInput b).push w = (s.push w).map (·.withInput b) := by
  by_cases h : s.sp.val < 16
  · rw [State.push_eq w h, State.push_eq (s := s.withInput b) w h]
    rfl
  · have hfull : s.sp.val = 16 := by omega
    rw [State.push_error_iff.mpr ⟨rfl, hfull⟩, State.push_error_iff (s := s.withInput b).mpr ⟨rfl, hfull⟩]
    rfl

theorem State.withInput_pop : (s.withInput b).pop = s.pop.map (fun r => (r.1, r.2.withInput b)) := by
  by_cases h : 0 < s.sp.val
  · rw [State.pop_eq h, State.pop_eq (s := s.withInput b) h]
    rfl
  · have hempty : s.sp.val = 0 := by omega
    rw [State.pop_error_iff.mpr ⟨rfl, hempty⟩, State.pop_error_iff (s := s.withInput b).mpr ⟨rfl, hempty⟩]
    rfl

/-! ### Answers -/

/-- The sample replaced in what an instruction answers. -/
def Result.withInput (input : TickInput) : Result → Result
  | .next t => .next (t.withInput input)
  | .fault e => .fault e
  | .refused r => .refused r

theorem checkRange_withInput (a n : Nat) (t : State) :
    checkRange a n (.next (t.withInput b)) = Result.withInput b (checkRange a n (.next t)) := by
  rw [checkRange_eq, checkRange_eq]
  split <;> rfl

theorem onDigit_withInput (n : Nat) (v : Byte) (done : Fin n → State) :
    onDigit n v (fun d => (done d).withInput b) = Result.withInput b (onDigit n v done) := by
  unfold onDigit
  cases digit n v <;> rfl

/-- The sample replaced in the state an operation leaves. -/
def OpResult.withInput (input : TickInput) : OpResult → OpResult
  | .ok t => .ok (t.withInput input)
  | .err e t => .err e (t.withInput input)
  | .refused r => .refused r

end Sys2Proof.Machine

namespace Sys2Proof.Claims

open Sys2Proof.Machine

/-! ### Instructions -/

/-- The two samples are alike in what the instruction reads of them (40_execution_cycle.md R111). -/
def inputsAgree (i : Instr) (a b : TickInput) : Prop :=
  (readsKeys i → a.keys = b.keys) ∧ (readsRnd i → a.rnd = b.rnd)

theorem keyDown_withInput {s : State} {b : TickInput} (h : s.host.input.keys = b.keys) :
    (s.withInput b).keyDown = s.keyDown := by
  funext k
  exact congrArg (·[k]) h.symm

theorem lowestKeyDown_withInput {s : State} {b : TickInput} (h : s.host.input.keys = b.keys) :
    (s.withInput b).lowestKeyDown = s.lowestKeyDown := by
  rw [State.lowestKeyDown, State.lowestKeyDown, keyDown_withInput h]

theorem execSkp_withInput {x : Reg} {s : State} {b : TickInput} (h : s.host.input.keys = b.keys) :
    execSkp x (s.withInput b) = Result.withInput b (execSkp x s) := by
  simp only [execSkp_eq, State.withInput_reg, keyDown_withInput h, State.withInput_skipIf, onDigit_withInput]

theorem execSknp_withInput {x : Reg} {s : State} {b : TickInput} (h : s.host.input.keys = b.keys) :
    execSknp x (s.withInput b) = Result.withInput b (execSknp x s) := by
  simp only [execSknp_eq, State.withInput_reg, keyDown_withInput h, State.withInput_skipIf, onDigit_withInput]

theorem execLdVxK_withInput {x : Reg} {s : State} {b : TickInput} (h : s.host.input.keys = b.keys) :
    execLdVxK x (s.withInput b) = Result.withInput b (execLdVxK x s) := by
  simp only [execLdVxK, lowestKeyDown_withInput h]
  split <;> rfl

theorem execRnd_withInput {x : Reg} {nn : Byte} {s : State} {b : TickInput} (h : s.host.input.rnd = b.rnd) :
    execRnd x nn (s.withInput b) = Result.withInput b (execRnd x nn s) := by
  simp only [execRnd, State.randomByte, h]
  rfl

theorem execRet_withInput (s : State) (b : TickInput) : execRet (s.withInput b) = Result.withInput b (execRet s) := by
  simp only [execRet, State.withInput_pop]
  cases s.pop <;> rfl

theorem execCall_withInput (nnn : Addr) (s : State) (b : TickInput) :
    execCall nnn (s.withInput b) = Result.withInput b (execCall nnn s) := by
  simp only [execCall, State.withInput_pc, State.withInput_push]
  cases s.push s.pc <;> rfl

theorem execLdVxMem_withInput (x : Reg) (s : State) (b : TickInput) :
    execLdVxMem x (s.withInput b) = Result.withInput b (execLdVxMem x s) := by
  simp only [execLdVxMem, State.afterBlock_eq, State.withInput_loadRegs]
  exact checkRange_withInput b (s.ea 0) (x.val + 1) (s.loadRegs (s.ea 0) (x.val + 1))

/-- An instruction does the same under any sample that agrees with the state's own on what it reads. -/
theorem exec_withInput {i : Instr} {s : State} {b : TickInput} (h : inputsAgree i s.host.input b) :
    exec i (s.withInput b) = Result.withInput b (exec i s) := by
  obtain ⟨hkeys, hrnd⟩ := h
  cases i with
  | skp x => exact execSkp_withInput (hkeys ⟨x, .inl rfl⟩)
  | sknp x => exact execSknp_withInput (hkeys ⟨x, .inr (.inl rfl)⟩)
  | ldVxK x => exact execLdVxK_withInput (hkeys ⟨x, .inr (.inr rfl)⟩)
  | rnd x nn => exact execRnd_withInput (hrnd ⟨x, nn, rfl⟩)
  | ret => exact execRet_withInput s b
  | call nnn => exact execCall_withInput nnn s b
  | ldF x => simp only [exec, execLdF_eq, ← onDigit_withInput]; rfl
  | ldVxMem x => exact execLdVxMem_withInput x s b
  | drw x y n => simp only [exec, execDrw, ← checkRange_withInput]; rfl
  | ldB x => simp only [exec, execLdB, ← checkRange_withInput]; rfl
  | ldMemVx x => simp only [exec, execLdMemVx, ← checkRange_withInput]; rfl
  | seImm | sneImm | seReg | sneReg => exact congrArg Host.Outcome.next (State.withInput_skipIf s b _)
  | _ => rfl

/-! ### A tick -/

theorem execute_withInput {i : Instr} {s : State} {b : TickInput} (h : inputsAgree i s.host.input b) :
    execute i (s.withInput b) = (execute i s).withInput b := by
  unfold execute
  rw [exec_withInput h]
  cases exec i s <;> rfl

theorem fetch_withInput (s : State) (b : TickInput) : fetch (s.withInput b) = fetch s := rfl

theorem tick_withInput {s : State} {b : TickInput} (h : ∀ i, fetches s i → inputsAgree i s.host.input b) :
    tick (s.withInput b) = (tick s).withInput b := by
  cases hf : fetch s with
  | error e =>
    rw [tick_of_fetch_error hf, tick_of_fetch_error ((fetch_withInput s b).trans hf)]
    rfl
  | ok op =>
    have hf' : fetch (s.withInput b) = .ok op := (fetch_withInput s b).trans hf
    cases hd : decodeWord op with
    | error d =>
      rw [tick_of_decode_error hf hd, tick_of_decode_error hf' hd]
      rfl
    | ok i =>
      rw [tick_of_decode_ok hf hd, tick_of_decode_ok hf' hd]
      exact execute_withInput (s := s.advancePc) (h i ⟨op, hf, hd⟩)

/-- `sameBut` looks past the sample standing in the state. -/
theorem sameBut_withInput (a b : TickInput) (r : OpResult) : sameBut a r (r.withInput b) := by
  cases r with
  | ok t => rfl
  | err e t => exact ⟨rfl, rfl⟩
  | refused q => rfl

/-- Where the state a tick leaves, failed or not, comes from: only a completed instruction adds to the fetch advance. -/
theorem tick_stateLeft_cases {s t : State} (h : (tick s).stateLeft = some t) :
    t = s ∨ t = s.advancePc ∨ ∃ i, fetches s i ∧ exec i s.advancePc = .next t := by
  cases hr : tick s with
  | ok u =>
    rw [hr] at h
    cases h
    obtain ⟨op, i, hf, hd, hx⟩ := tick_ok_cases hr
    exact .inr (.inr ⟨i, ⟨op, hf, hd⟩, hx⟩)
  | err e u =>
    rw [hr] at h
    cases h
    obtain ⟨-, rfl⟩ | ⟨-, -, -, -, -, rfl⟩ | ⟨-, -, -, -, -, rfl⟩ := tick_err_cases hr
    · exact .inl rfl
    · exact .inr (.inl rfl)
    · exact .inr (.inl rfl)
  | refused r =>
    rw [hr] at h
    cases h

/-- Settles O12: the inputs reach the answer through the instruction executed alone, and so does a write of a timer. -/
theorem onlyKeyAndRandomInstructionsReadInputs : Obligations.OnlyKeyAndRandomInstructionsReadInputs := by
  refine ⟨fun s a b h => ?inputs, fun s t h => ?timers⟩
  case inputs =>
    have hb : tick (s.withInput b) = (tick (s.withInput a)).withInput b := tick_withInput (s := s.withInput a) h
    rw [hb]
    exact sameBut_withInput a b _
  case timers =>
    obtain rfl | rfl | ⟨i, hi, hx⟩ := tick_stateLeft_cases h
    · exact ⟨fun _ => rfl, fun _ => rfl⟩
    · exact ⟨fun _ => rfl, fun _ => rfl⟩
    · have hDT := exec_DT_of_ne hx
      have hST := exec_ST_of_ne hx
      exact ⟨fun hno => hDT fun x hix => hno x (hix ▸ hi), fun hno => hST fun x hix => hno x (hix ▸ hi)⟩

end Sys2Proof.Claims
end

section
/-! What a row of the opcode table decodes to (30_encoding.md R85), from the nibbles that its mask selects. -/

namespace Sys2Proof.Claims

open Sys2Proof.Machine

/-! ### Rows by their mask -/

/-- A row with mask F000 is selected by the top nibble alone. -/
theorem encodedBy_F000 {d : Nat} {build : Word → Instr} (hd : d < 16)
    (hrow : ∀ op, d1 op = d → decodeWord op = .ok (build op)) : EncodedBy 0xF000 (BitVec.ofNat 16 (d * 4096)) build :=
  fun op hop => hrow op ((fits_F000_iff op d hd).mp hop)

/-- A row with mask F00F is selected by the top nibble and the lowest. -/
theorem encodedBy_F00F {d e : Nat} {build : Word → Instr} (hd : d < 16) (he : e < 16)
    (hrow : ∀ op, d1 op = d → d4 op = e → decodeWord op = .ok (build op)) :
    EncodedBy 0xF00F (BitVec.ofNat 16 (d * 4096 + e)) build := by
  intro op hop
  obtain ⟨htop, hlow⟩ := (fits_F00F_iff op d e hd he).mp hop
  exact hrow op htop hlow

/-! ### The rows of the control transfer instructions -/

theorem decodeWord_of_d1_zero {op : Word} (h : d1 op = 0x0) : decodeWord op = .ok (decode0 op) := by
  simp only [decodeWord, h]

theorem decode0_of_ne {op : Word} (hcls : op ≠ 0x00E0) (hret : op ≠ 0x00EE) : decode0 op = .sys (fieldNNN op) := by
  rw [decode0, if_neg hcls, if_neg hret]

theorem decodeWord_of_d1_five {op : Word} (h : d1 op = 0x5) :
    decodeWord op = if d4 op = 0 then .ok (.seReg (fieldX op) (fieldY op)) else .error (.illegal5 (d4 op)) := by
  simp only [decodeWord, h]

theorem decodeWord_of_d1_nine {op : Word} (h : d1 op = 0x9) :
    decodeWord op = if d4 op = 0 then .ok (.sneReg (fieldX op) (fieldY op)) else .error (.illegal9 (d4 op)) := by
  simp only [decodeWord, h]

theorem encodedBy_jp : EncodedBy 0xF000 0x1000 (fun op => .jp (fieldNNN op)) :=
  encodedBy_F000 (d := 0x1) (by decide) fun op h => by simp only [decodeWord, h]

theorem encodedBy_call : EncodedBy 0xF000 0x2000 (fun op => .call (fieldNNN op)) :=
  encodedBy_F000 (d := 0x2) (by decide) fun op h => by simp only [decodeWord, h]

theorem encodedBy_seImm : EncodedBy 0xF000 0x3000 (fun op => .seImm (fieldX op) (fieldNN op)) :=
  encodedBy_F000 (d := 0x3) (by decide) fun op h => by simp only [decodeWord, h]

theorem encodedBy_sneImm : EncodedBy 0xF000 0x4000 (fun op => .sneImm (fieldX op) (fieldNN op)) :=
  encodedBy_F000 (d := 0x4) (by decide) fun op h => by simp only [decodeWord, h]

theorem encodedBy_jpV0 : EncodedBy 0xF000 0xB000 (fun op => .jpV0 (fieldNNN op)) :=
  encodedBy_F000 (d := 0xB) (by decide) fun op h => by simp only [decodeWord, h]

theorem encodedBy_seReg : EncodedBy 0xF00F 0x5000 (fun op => .seReg (fieldX op) (fieldY op)) :=
  encodedBy_F00F (d := 0x5) (e := 0) (by decide) (by decide) fun _ htop hlow =>
    (decodeWord_of_d1_five htop).trans (if_pos hlow)

theorem encodedBy_sneReg : EncodedBy 0xF00F 0x9000 (fun op => .sneReg (fieldX op) (fieldY op)) :=
  encodedBy_F00F (d := 0x9) (e := 0) (by decide) (by decide) fun _ htop hlow =>
    (decodeWord_of_d1_nine htop).trans (if_pos hlow)

end Sys2Proof.Claims
end

section
/-! Control transfer instructions (41_control_flow.md): SYS, RET, the jumps and CALL, and the skips. -/

namespace Sys2Proof.Machine

/-! ### Completions -/

theorem execRet_of_nonempty {s : State} (h : 0 < s.sp.val) :
    execRet s = .next (({ s with sp := ⟨s.sp.val - 1, by omega⟩ } : State).setPc (s.stack[s.sp.val - 1]'(by omega))) := by
  rw [execRet, State.pop_eq h]

theorem execCall_of_not_full {s : State} (nnn : Addr) (h : s.sp.val < 16) :
    execCall nnn s = .next (({ s with stack := s.stack.set s.sp.val s.pc, sp := ⟨s.sp.val + 1, by omega⟩ } : State).setPc
      (addrWord nnn)) := by
  rw [execCall, State.push_eq s.pc h]

/-- The sum of twelve bits and eight fits a word, so BNNN does not wrap (41_control_flow.md R135). -/
@[simp] theorem State.offsetTarget_toNat (s : State) (nnn : Addr) :
    (s.offsetTarget nnn).toNat = nnn.toNat + (s.reg 0).toNat := by
  have hnnn : nnn.toNat < 4096 := nnn.isLt
  have hv : (s.reg 0).toNat < 256 := (s.reg 0).isLt
  rw [State.offsetTarget, Config.jumpOffsetReg, BitVec.toNat_ofNat]
  omega

end Sys2Proof.Machine

namespace Sys2Proof.Claims

open Sys2Proof.Machine

/-! ### Errors -/

/-- An instruction that raises an error hands back the state it was given. -/
theorem failsUnchanged_iff {i : Instr} {s : State} {e : Fault} : failsUnchanged i s e ↔ raises i s e := by
  refine ⟨fun ⟨hx, _⟩ => exec_fault_iff.mp hx, fun h => ?_⟩
  have hx : exec i s = .fault e := exec_fault_iff.mpr h
  exact ⟨hx, by rw [execute, hx]⟩

/-- Settles O14: outside CLS and RET the rows with top nibble 0 are SYS, which raises its error in every state, so a tick
of it is left with the fetch advance. -/
theorem sysRaisesInvalidOpcode : Obligations.SysRaisesInvalidOpcode := by
  have hfail (nnn : Addr) (s : State) : failsUnchanged (.sys nnn) s .invalidOpcode := failsUnchanged_iff.mpr rfl
  refine ⟨fun op hop hcls hret => ?decode, fun nnn s => (hfail nnn s).1, fun op nnn s hf hd => ?tick⟩
  case decode =>
    have htop : d1 op = 0 := (fits_F000_iff op 0 (by decide)).mp hop
    rw [decodeWord_of_d1_zero htop, decode0_of_ne hcls hret]
  case tick => exact (tick_of_decode_ok hf hd).trans (hfail nnn s.advancePc).2

/-! ### The stack -/

/-- Settles O15: an empty stack is R230's condition for the error, and any other one pops. -/
theorem retPopsTheReturnAddress : Obligations.RetPopsTheReturnAddress := by
  refine ⟨by decide, fun s => ⟨fun hempty => failsUnchanged_iff.mpr ⟨rfl, hempty⟩, fun hsp => ?pops⟩⟩
  case pops =>
    have hx := execRet_of_nonempty hsp
    refine ⟨_, hx, rfl, fun k hk => ?_, execRet_frame hx⟩
    simp only [State.setPc_pc, Fin.getElem_fin, hk]

/-- Settles O17: a full stack is R230's condition for the error, and any other one takes the advanced pc. -/
theorem callPushesPcAndJumps : Obligations.CallPushesPcAndJumps := by
  refine ⟨encodedBy_call, fun nnn s => ⟨fun hfull => failsUnchanged_iff.mpr ⟨rfl, hfull⟩, fun hsp => ?pushes⟩⟩
  case pushes =>
    have hx := execCall_of_not_full nnn hsp
    refine ⟨_, hx, addrWord_toNat nnn, rfl, fun k hk => ?_, execCall_frame hx⟩
    simp only [State.setPc_stack, Fin.getElem_fin, hk, Vector.getElem_set_self]

/-! ### Jumps -/

/-- Settles O16: the target as a word is NNN, zero-extended. -/
theorem jumpSetsPcToNNN : Obligations.JumpSetsPcToNNN :=
  ⟨encodedBy_jp, fun nnn s => ⟨_, rfl, addrWord_toNat nnn, s.setPc_frame _⟩⟩

/-- Settles O18: the target as a word is the unbounded sum. -/
theorem jumpWithOffsetAddsV0 : Obligations.JumpWithOffsetAddsV0 :=
  ⟨encodedBy_jpV0, fun nnn s => ⟨_, rfl, s.offsetTarget_toNat nnn, s.setPc_frame _⟩⟩

/-! ### Skips -/

/-- What a conditional skip does (41_control_flow.md R140), for a test that holds under `p` and fails under `q`. -/
theorem exec_skip {i : Instr} {s : State} {c : Bool} {p q : Prop} (hx : exec i s = .next (s.skipIf c))
    (hp : p → c = true) (hq : q → c = false) :
    ∃ t, exec i s = .next t ∧ (p → t.pc = s.pc + 2) ∧ (q → t.pc = s.pc) ∧ FrameExcept s t (fun part => part = .pc) :=
  ⟨_, hx, fun h => by rw [hp h]; rfl, fun h => by rw [hq h]; rfl, s.skipIf_frame c⟩

/-- Settles O19: the skip's test is equality of VX and NN. -/
theorem skipIfEqualImmediate : Obligations.SkipIfEqualImmediate :=
  ⟨encodedBy_seImm, fun _ _ _ => exec_skip rfl beq_iff_eq.mpr beq_eq_false_iff_ne.mpr⟩

/-- Settles O20: the skip's test is inequality of VX and NN. -/
theorem skipIfNotEqualImmediate : Obligations.SkipIfNotEqualImmediate :=
  ⟨encodedBy_sneImm, fun _ _ _ => exec_skip rfl bne_iff_ne.mpr bne_eq_false_iff_eq.mpr⟩

/-- Settles O21: within the top nibble 5 only the lowest nibble 0 is a row. -/
theorem skipIfRegistersEqual : Obligations.SkipIfRegistersEqual :=
  ⟨encodedBy_seReg, fun _ htop hlow => ⟨_, (decodeWord_of_d1_five htop).trans (if_neg hlow)⟩,
    fun _ _ _ => exec_skip rfl beq_iff_eq.mpr beq_eq_false_iff_ne.mpr⟩

/-- Settles O22: within the top nibble 9 only the lowest nibble 0 is a row. -/
theorem skipIfRegistersDiffer : Obligations.SkipIfRegistersDiffer :=
  ⟨encodedBy_sneReg, fun _ htop hlow => ⟨_, (decodeWord_of_d1_nine htop).trans (if_neg hlow)⟩,
    fun _ _ _ => exec_skip rfl bne_iff_ne.mpr bne_eq_false_iff_eq.mpr⟩

end Sys2Proof.Claims
end

section
/-! Load, arithmetic, logic, shift and random instructions (42_load_alu.md): their rows of the opcode table, the results
and flags as numbers, and what each instruction completes with. -/

namespace Sys2Proof.Machine

/-! ### Results and flags as numbers (R150) -/

@[simp] theorem addByte_toNat (a b : Byte) : (addByte a b).toNat = (a.toNat + b.toNat) % 256 :=
  (BitVec.toNat_ofNat ..).trans (Nat.mod_mod _ _)

/-- The two branches of the difference are its remainder: with a borrow the 256 added makes up for the sign. -/
@[simp] theorem subByte_toNat (a b : Byte) : ((subByte a b).toNat : Int) = (a.toNat - b.toNat : Int) % 256 := by
  have ha : a.toNat < 256 := a.isLt
  have hb : b.toNat < 256 := b.isLt
  rw [subByte, BitVec.toNat_ofNat]
  split <;> omega

@[simp] theorem shrByte_toNat (a : Byte) : (shrByte a).toNat = a.toNat / 2 :=
  (BitVec.toNat_ofNat ..).trans (Nat.mod_eq_of_lt ((Nat.div_le_self _ _).trans_lt a.isLt))

@[simp] theorem shlByte_toNat (a : Byte) : (shlByte a).toNat = a.toNat * 2 % 256 :=
  (BitVec.toNat_ofNat ..).trans (Nat.mod_mod _ _)

@[simp] theorem flagByte_toNat (f : Bool) : (flagByte f).toNat = f.toNat := by cases f <;> rfl

theorem flagByte_carryFlag_toNat (a b : Byte) :
    (flagByte (carryFlag a b)).toNat = if 256 ≤ a.toNat + b.toNat then 1 else 0 := by
  rw [flagByte_toNat, carryFlag, Bool.toNat, Bool.cond_decide]

theorem flagByte_noBorrowFlag_toNat (a b : Byte) :
    (flagByte (noBorrowFlag a b)).toNat = if b.toNat ≤ a.toNat then 1 else 0 := by
  rw [flagByte_toNat, noBorrowFlag, Bool.toNat, Bool.cond_decide]

theorem flagByte_shrFlag_toNat (a : Byte) : (flagByte (shrFlag a)).toNat = a.toNat % 2 := by
  rw [flagByte_toNat, shrFlag, BitVec.getLsbD, Nat.toNat_testBit, Nat.pow_zero, Nat.div_one]

/-- Nothing stands above bit 7 of a byte, so the quotient by 128 is that bit. -/
theorem flagByte_shlFlag_toNat (a : Byte) : (flagByte (shlFlag a)).toNat = a.toNat / 128 := by
  have ha : a.toNat < 256 := a.isLt
  rw [flagByte_toNat, shlFlag, BitVec.getLsbD, Nat.toNat_testBit]
  omega

/-! ### Completions under the parameters of 00_scope.md R6 -/

/-- A shift works on VX whatever Y (R160, decision D7). -/
theorem exec_shr (x y : Reg) (s : State) :
    exec (.shr x y) s = .next (s.writeWithFlag x (shrByte (s.reg x)) (shrFlag (s.reg x))) := by
  rw [exec, execShr, shiftOperand_eq]

/-- A shift works on VX whatever Y (R162, decision D7). -/
theorem exec_shl (x y : Reg) (s : State) :
    exec (.shl x y) s = .next (s.writeWithFlag x (shlByte (s.reg x)) (shlFlag (s.reg x))) := by
  rw [exec, execShl, shiftOperand_eq]

/-- A logic operation writes VX alone (R157, decision D10). -/
theorem exec_orReg (x y : Reg) (s : State) : exec (.orReg x y) s = .next (s.setReg x (s.reg x ||| s.reg y)) := by
  rw [exec, execOr, State.afterLogic_eq]

/-- A logic operation writes VX alone (R157, decision D10). -/
theorem exec_andReg (x y : Reg) (s : State) : exec (.andReg x y) s = .next (s.setReg x (s.reg x &&& s.reg y)) := by
  rw [exec, execAnd, State.afterLogic_eq]

/-- A logic operation writes VX alone (R157, decision D10). -/
theorem exec_xorReg (x y : Reg) (s : State) : exec (.xorReg x y) s = .next (s.setReg x (s.reg x ^^^ s.reg y)) := by
  rw [exec, execXor, State.afterLogic_eq]

end Sys2Proof.Machine

namespace Sys2Proof.Claims

open Sys2Proof.Machine

/-! ### Rows of the opcode table -/

theorem encodedBy_ldImm : EncodedBy 0xF000 0x6000 (fun op => .ldImm (fieldX op) (fieldNN op)) :=
  encodedBy_F000 (d := 0x6) (by decide) fun op h => by simp only [decodeWord, h]

theorem encodedBy_addImm : EncodedBy 0xF000 0x7000 (fun op => .addImm (fieldX op) (fieldNN op)) :=
  encodedBy_F000 (d := 0x7) (by decide) fun op h => by simp only [decodeWord, h]

theorem encodedBy_rnd : EncodedBy 0xF000 0xC000 (fun op => .rnd (fieldX op) (fieldNN op)) :=
  encodedBy_F000 (d := 0xC) (by decide) fun op h => by simp only [decodeWord, h]

theorem decodeWord_of_d1_eight {op : Word} (h : d1 op = 0x8) : decodeWord op = decode8 op := by
  simp only [decodeWord, h]

/-- Within the top nibble 8 the lowest nibble selects the row. -/
theorem encodedBy_eight {e : Nat} {build : Word → Instr} (he : e < 16)
    (hrow : ∀ op, d4 op = e → decode8 op = .ok (build op)) : EncodedBy 0xF00F (BitVec.ofNat 16 (0x8 * 4096 + e)) build :=
  encodedBy_F00F (by decide) he fun op htop hlow => (decodeWord_of_d1_eight htop).trans (hrow op hlow)

theorem encodedBy_ldReg : EncodedBy 0xF00F 0x8000 (fun op => .ldReg (fieldX op) (fieldY op)) :=
  encodedBy_eight (e := 0x0) (by decide) fun op h => by simp only [decode8, h]

theorem encodedBy_orReg : EncodedBy 0xF00F 0x8001 (fun op => .orReg (fieldX op) (fieldY op)) :=
  encodedBy_eight (e := 0x1) (by decide) fun op h => by simp only [decode8, h]

theorem encodedBy_andReg : EncodedBy 0xF00F 0x8002 (fun op => .andReg (fieldX op) (fieldY op)) :=
  encodedBy_eight (e := 0x2) (by decide) fun op h => by simp only [decode8, h]

theorem encodedBy_xorReg : EncodedBy 0xF00F 0x8003 (fun op => .xorReg (fieldX op) (fieldY op)) :=
  encodedBy_eight (e := 0x3) (by decide) fun op h => by simp only [decode8, h]

theorem encodedBy_addReg : EncodedBy 0xF00F 0x8004 (fun op => .addReg (fieldX op) (fieldY op)) :=
  encodedBy_eight (e := 0x4) (by decide) fun op h => by simp only [decode8, h]

theorem encodedBy_sub : EncodedBy 0xF00F 0x8005 (fun op => .sub (fieldX op) (fieldY op)) :=
  encodedBy_eight (e := 0x5) (by decide) fun op h => by simp only [decode8, h]

theorem encodedBy_shr : EncodedBy 0xF00F 0x8006 (fun op => .shr (fieldX op) (fieldY op)) :=
  encodedBy_eight (e := 0x6) (by decide) fun op h => by simp only [decode8, h]

theorem encodedBy_subn : EncodedBy 0xF00F 0x8007 (fun op => .subn (fieldX op) (fieldY op)) :=
  encodedBy_eight (e := 0x7) (by decide) fun op h => by simp only [decode8, h]

theorem encodedBy_shl : EncodedBy 0xF00F 0x800E (fun op => .shl (fieldX op) (fieldY op)) :=
  encodedBy_eight (e := 0xE) (by decide) fun op h => by simp only [decode8, h]

/-! ### Loads and the addition without a flag -/

/-- Settles O24: the value written is NN. -/
theorem loadImmediateSetsVX : Obligations.LoadImmediateSetsVX :=
  ⟨encodedBy_ldImm, fun x nn s => ⟨_, rfl, s.setReg_reg_self x nn, s.setReg_frame x nn⟩⟩

/-- Settles O26: the value written is the old VY. -/
theorem loadRegisterCopiesVY : Obligations.LoadRegisterCopiesVY :=
  ⟨encodedBy_ldReg, fun x y s => ⟨_, rfl, s.setReg_reg_self x (s.reg y), s.setReg_frame x _⟩⟩

/-- Settles O25: the byte written is the sum modulo 256, and VX is the one part written. -/
theorem addImmediateWrapsWithoutFlag : Obligations.AddImmediateWrapsWithoutFlag := by
  refine ⟨encodedBy_addImm, fun x nn s => ⟨_, rfl, ?sum, s.setReg_frame x _⟩⟩
  case sum => rw [State.setReg_reg_self, addByte_toNat]

/-! ### Results given bit by bit -/

/-- An instruction that writes one register alone, with a byte known by its bits. -/
theorem exec_setReg_bits {i : Instr} {s : State} {x : Reg} {v : Byte} {bit : Nat → Bool}
    (hx : exec i s = .next (s.setReg x v)) (hbits : ∀ b, v.getLsbD b = bit b) :
    ∃ t, exec i s = .next t ∧ (∀ b, (t.reg x).getLsbD b = bit b) ∧ FrameExcept s t (fun p => p = .reg x) :=
  ⟨_, hx, fun b => by rw [State.setReg_reg_self, hbits], s.setReg_frame x v⟩

/-- Settles O27: the byte written is VX ||| VY, whose bits are the ORs, and no flag follows it. -/
theorem orIsBitwiseAndSetsNoFlag : Obligations.OrIsBitwiseAndSetsNoFlag :=
  ⟨encodedBy_orReg, fun x y s => exec_setReg_bits (exec_orReg x y s) fun _ => BitVec.getLsbD_or⟩

/-- Settles O28: the byte written is VX &&& VY, whose bits are the ANDs, and no flag follows it. -/
theorem andIsBitwiseAndSetsNoFlag : Obligations.AndIsBitwiseAndSetsNoFlag :=
  ⟨encodedBy_andReg, fun x y s => exec_setReg_bits (exec_andReg x y s) fun _ => BitVec.getLsbD_and⟩

/-- Settles O29: the byte written is VX ^^^ VY, whose bits are the exclusive ORs, and no flag follows it. -/
theorem xorIsBitwiseAndSetsNoFlag : Obligations.XorIsBitwiseAndSetsNoFlag :=
  ⟨encodedBy_xorReg, fun x y s => exec_setReg_bits (exec_xorReg x y s) fun _ => BitVec.getLsbD_xor⟩

/-- Settles O35: the byte written is the tick's draw, whatever it is, masked with NN. -/
theorem randomByteIsMaskedWithNN : Obligations.RandomByteIsMaskedWithNN :=
  ⟨encodedBy_rnd, fun _ _ _ _ => exec_setReg_bits rfl fun _ => BitVec.getLsbD_and⟩

/-! ### Results with a flag -/

/-- What an instruction with a flag does (R157), its result read by `read` and its flag as a number: the flag wins when
the destination is VF. -/
theorem exec_writeWithFlag {α : Type} {i : Instr} {s : State} {x : Reg} {v : Byte} {f : Bool} {n : Nat} {result : α}
    (read : Byte → α) (hx : exec i s = .next (s.writeWithFlag x v f)) (hv : read v = result)
    (hf : (flagByte f).toNat = n) :
    ∃ t, exec i s = .next t ∧ (x ≠ VF → read (t.reg x) = result) ∧ (t.reg VF).toNat = n ∧
      FrameExcept s t (fun p => p = .reg x ∨ p = .reg VF) := by
  obtain ⟨hVX, hVF⟩ := s.writeWithFlag_reg x v f
  exact ⟨_, hx, fun hne => by rw [hVX hne, hv], by rw [hVF, hf], s.writeWithFlag_frame x v f⟩

/-- Settles O30: the sum modulo 256 with its carry as the flag. -/
theorem addRegistersSetsCarry : Obligations.AddRegistersSetsCarry :=
  ⟨encodedBy_addReg, fun _ _ _ =>
    exec_writeWithFlag BitVec.toNat rfl (addByte_toNat _ _) (flagByte_carryFlag_toNat _ _)⟩

/-- Settles O31: the difference, taken in the integers, modulo 256 with no borrow as the flag. -/
theorem subRegistersSetsNoBorrow : Obligations.SubRegistersSetsNoBorrow :=
  ⟨encodedBy_sub, fun _ _ _ =>
    exec_writeWithFlag (fun v => (v.toNat : Int)) rfl (subByte_toNat _ _) (flagByte_noBorrowFlag_toNat _ _)⟩

/-- Settles O33: the operands of 8XY5, exchanged. -/
theorem subnRegistersSetsNoBorrow : Obligations.SubnRegistersSetsNoBorrow :=
  ⟨encodedBy_subn, fun _ _ _ =>
    exec_writeWithFlag (fun v => (v.toNat : Int)) rfl (subByte_toNat _ _) (flagByte_noBorrowFlag_toNat _ _)⟩

/-- Settles O32: VY has no part in it, by `exec_shr`. -/
theorem shiftRightMovesBitZeroToVF : Obligations.ShiftRightMovesBitZeroToVF :=
  ⟨encodedBy_shr, fun x y s =>
    exec_writeWithFlag BitVec.toNat (exec_shr x y s) (shrByte_toNat _) (flagByte_shrFlag_toNat _)⟩

/-- Settles O34: VY has no part in it, by `exec_shl`. -/
theorem shiftLeftMovesBitSevenToVF : Obligations.ShiftLeftMovesBitSevenToVF :=
  ⟨encodedBy_shl, fun x y s =>
    exec_writeWithFlag BitVec.toNat (exec_shl x y s) (shlByte_toNat _) (flagByte_shlFlag_toNat _)⟩

end Sys2Proof.Claims
end

section
/-! Index and memory instructions (43_index_memory.md): the rows of the top nibble F that they need, the values they
compute as numbers, what a block store or load completes with, and each instruction. -/

namespace Sys2Proof.Machine

/-! ### Values as numbers -/

@[simp] theorem addIndex_toNat (i : IndexWord) (v : Byte) : (addIndex i v).toNat = (i.toNat + v.toNat) % 65536 :=
  (BitVec.toNat_ofNat ..).trans (Nat.mod_mod _ _)

/-- The font stands at address 0, five bytes a glyph (R183). -/
@[simp] theorem glyphAddr_toNat (d : GlyphDigit) : (glyphAddr d).toNat = 5 * d.val := by
  have hd : d.val < 16 := d.isLt
  rw [glyphAddr, BitVec.toNat_ofNat, Config.fontBase, Config.glyphLen]
  omega

/-- Each decimal digit fits a byte, so storing it loses nothing (R184). -/
theorem bcdDigits_map_toNat (v : Byte) :
    (bcdDigits v).map BitVec.toNat = [v.toNat / 100, v.toNat / 10 % 10, v.toNat % 10] := by
  have hdigit {n : Nat} (h : n < 10) : (BitVec.ofNat 8 n).toNat = n :=
    (BitVec.toNat_ofNat ..).trans (Nat.mod_eq_of_lt (h.trans (by decide)))
  have hv : v.toNat < 256 := v.isLt
  simp only [bcdDigits, List.map_cons, List.map_nil]
  rw [hdigit (by omega), hdigit (by omega), hdigit (by omega)]

/-! ### Blocks at I -/

/-- Byte k of a block stored at I is read at I + k. -/
theorem State.storeBytes_ea_byte (s : State) {bs : List Byte} {k : Nat} (h : k < bs.length) :
    (s.storeBytes (s.ea 0) bs).byte (s.ea k) = bs.getD k 0 := by
  rw [State.storeBytes_byte, Memory.read_writeList, if_pos (by simp only [State.ea]; omega)]
  simp only [State.ea, Nat.add_zero, Nat.add_sub_cancel_left]

/-- The bytes that FX33 leaves at I, I+1, I+2, as numbers (R185). -/
theorem State.storeBytes_bcdDigits_byte (s : State) (v : Byte) {k : Nat} (hk : k < 3) :
    ((s.storeBytes (s.ea 0) (bcdDigits v)).byte (s.ea k)).toNat =
      [v.toNat / 100, v.toNat / 10 % 10, v.toNat % 10].getD k 0 := by
  rw [State.storeBytes_ea_byte s hk, ← bcdDigits_map_toNat]
  exact (List.getD_map _ 0 BitVec.toNat).symm

/-- A block at I that is not empty passes the range check when its last byte lies in memory (20_memory.md R56). -/
theorem checkRange_ea_of_inside {s : State} {n : Nat} {done : Result} (h : s.I.toNat + n < Config.memSize) :
    checkRange (s.ea 0) (n + 1) done = done := by
  rw [checkRange_eq, if_pos (.inr (by simp only [State.ea]; omega))]

theorem exec_ldB_of_inside {s : State} (x : Reg) (h : s.I.toNat + 2 < Config.memSize) :
    exec (.ldB x) s = .next (s.storeBytes (s.ea 0) (bcdDigits (s.reg x))) :=
  checkRange_ea_of_inside h

/-- A dump leaves I (R186, decision D9). -/
theorem exec_ldMemVx_of_inside {s : State} {x : Reg} (h : s.I.toNat + x.val < Config.memSize) :
    exec (.ldMemVx x) s = .next (s.storeBytes (s.ea 0) (s.regsUpTo x)) :=
  checkRange_ea_of_inside h

/-- A load leaves I (R187, decision D9). -/
theorem exec_ldVxMem_of_inside {s : State} {x : Reg} (h : s.I.toNat + x.val < Config.memSize) :
    exec (.ldVxMem x) s = .next (s.loadRegs (s.ea 0) (x.val + 1)) :=
  checkRange_ea_of_inside h

/-- A register that is a digit points I at its glyph (R183). -/
theorem exec_ldF_of_digit {s : State} {x : Reg} (h : (s.reg x).toNat ≤ 15) :
    exec (.ldF x) s = .next (s.setI (glyphAddr ⟨(s.reg x).toNat, Nat.lt_succ_of_le h⟩)) :=
  (execLdF_eq x s).trans (onDigit_next_iff.mpr ⟨_, rfl, rfl⟩)

end Sys2Proof.Machine

namespace Sys2Proof.Claims

open Sys2Proof.Machine

/-! ### Rows of the opcode table -/

/-- A row with mask F0FF is selected by the top nibble and the low byte. -/
theorem encodedBy_F0FF {d e : Nat} {build : Word → Instr} (hd : d < 16) (he : e < 256)
    (hrow : ∀ op, d1 op = d → lowByte op = e → decodeWord op = .ok (build op)) :
    EncodedBy 0xF0FF (BitVec.ofNat 16 (d * 4096 + e)) build := by
  intro op hop
  obtain ⟨htop, hlow⟩ := (fits_F0FF_iff op d e hd he).mp hop
  exact hrow op htop hlow

theorem decodeWord_of_d1_fifteen {op : Word} (h : d1 op = 0xF) : decodeWord op = decodeF op := by
  simp only [decodeWord, h]

/-- Within the top nibble F the low byte selects the row. -/
theorem encodedBy_fifteen {e : Nat} {build : Word → Instr} (he : e < 256)
    (hrow : ∀ op, lowByte op = e → decodeF op = .ok (build op)) :
    EncodedBy 0xF0FF (BitVec.ofNat 16 (0xF * 4096 + e)) build :=
  encodedBy_F0FF (by decide) he fun op htop hlow => (decodeWord_of_d1_fifteen htop).trans (hrow op hlow)

theorem encodedBy_ldI : EncodedBy 0xF000 0xA000 (fun op => .ldI (fieldNNN op)) :=
  encodedBy_F000 (d := 0xA) (by decide) fun op h => by simp only [decodeWord, h]

theorem encodedBy_addI : EncodedBy 0xF0FF 0xF01E (fun op => .addI (fieldX op)) :=
  encodedBy_fifteen (e := 0x1E) (by decide) fun op h => by simp only [decodeF, h]

theorem encodedBy_ldF : EncodedBy 0xF0FF 0xF029 (fun op => .ldF (fieldX op)) :=
  encodedBy_fifteen (e := 0x29) (by decide) fun op h => by simp only [decodeF, h]

theorem encodedBy_ldB : EncodedBy 0xF0FF 0xF033 (fun op => .ldB (fieldX op)) :=
  encodedBy_fifteen (e := 0x33) (by decide) fun op h => by simp only [decodeF, h]

theorem encodedBy_ldMemVx : EncodedBy 0xF0FF 0xF055 (fun op => .ldMemVx (fieldX op)) :=
  encodedBy_fifteen (e := 0x55) (by decide) fun op h => by simp only [decodeF, h]

theorem encodedBy_ldVxMem : EncodedBy 0xF0FF 0xF065 (fun op => .ldVxMem (fieldX op)) :=
  encodedBy_fifteen (e := 0x65) (by decide) fun op h => by simp only [decodeF, h]

/-! ### Register dump and load -/

/-- Settles O40: outside memory is R230's condition for the error; inside it byte k of the block stored at I is Vk. -/
theorem registerDumpStoresV0ToVX : Obligations.RegisterDumpStoresV0ToVX := by
  refine ⟨encodedBy_ldMemVx, fun x s =>
    ⟨fun hout => failsUnchanged_iff.mpr ⟨rfl, hout⟩, fun hin => ?stores⟩⟩
  case stores =>
    have hx := exec_ldMemVx_of_inside hin
    refine ⟨_, hx, fun k hk => ?_, exec_frame hx⟩
    have hlen : k.val < (s.regsUpTo x).length := by
      rw [State.regsUpTo_length]
      exact Nat.lt_succ_of_le hk
    rw [State.storeBytes_ea_byte s hlen, State.regsUpTo_getD s x k hk]

/-- Settles O41: outside memory is R230's condition for the error; inside it the block read at I fills V0 to VX. -/
theorem registerLoadReadsV0ToVX : Obligations.RegisterLoadReadsV0ToVX := by
  refine ⟨encodedBy_ldVxMem, fun x s =>
    ⟨fun hout => failsUnchanged_iff.mpr ⟨rfl, hout⟩, fun hin => ?loads⟩⟩
  case loads =>
    have hx := exec_ldVxMem_of_inside hin
    refine ⟨_, hx, fun k hk => ?_, exec_frame hx⟩
    rw [State.loadRegs_reg s (s.ea 0) (x.val + 1) k x.isLt, if_pos (Nat.lt_succ_of_le hk)]
    rfl

/-! ### The index register -/

/-- Settles O36: the value as a word is NNN, zero-extended. -/
theorem loadIndexSetsI : Obligations.LoadIndexSetsI :=
  ⟨encodedBy_ldI, fun nnn s => ⟨_, rfl, addrWord_toNat nnn, s.setI_frame _⟩⟩

/-- Settles O37: the word written is the sum modulo 65536, and I is the one part written. -/
theorem addIndexWrapsAtSixteenBits : Obligations.AddIndexWrapsAtSixteenBits :=
  ⟨encodedBy_addI, fun x s => ⟨_, rfl, addIndex_toNat s.I (s.reg x), s.setI_frame _⟩⟩

/-- Settles O38: a value that is no digit is R230's condition for the error, and a digit selects its glyph. -/
theorem loadFontPointsIAtTheGlyph : Obligations.LoadFontPointsIAtTheGlyph :=
  ⟨encodedBy_ldF, fun _ s => ⟨fun hbig => failsUnchanged_iff.mpr ⟨rfl, hbig⟩, fun hdigit =>
    ⟨_, exec_ldF_of_digit hdigit, glyphAddr_toNat _, s.setI_frame _⟩⟩⟩

/-! ### Decimal digits -/

/-- Settles O39: outside memory is R230's condition for the error; inside it the block stored at I is the digit list. -/
theorem storeBcdWritesThreeDigits : Obligations.StoreBcdWritesThreeDigits := by
  refine ⟨encodedBy_ldB, fun v hv => ?decimal, fun x s =>
    ⟨fun hout => failsUnchanged_iff.mpr ⟨rfl, hout⟩, fun hin => ?stores⟩⟩
  case decimal => omega
  case stores =>
    have hx := exec_ldB_of_inside x hin
    have hdigit {k : Nat} (hk : k < 3) := State.storeBytes_bcdDigits_byte s (s.reg x) hk
    exact ⟨_, hx, hdigit (k := 0) (by decide), hdigit (k := 1) (by decide), hdigit (k := 2) (by decide), exec_frame hx⟩

end Sys2Proof.Claims
end

section
/-! Display instructions and the host's read of the display (44_display.md): the grid and the collision that a draw
leaves, read off the sprite's on bits, and what each completes with. -/

namespace Sys2Proof.Machine

/-! ### Completions -/

/-- The range check passes when there is no byte to touch, and when the last one lies in memory (20_memory.md R56). -/
theorem checkRange_of_inside {a n : Nat} {done : Result} (h : n = 0 ∨ a + n - 1 < Config.memSize) :
    checkRange a n done = done := by
  rw [checkRange_eq, if_pos (by omega)]

/-- What DRW computes (R202): the grid with the sprite drawn on it, and whether an on bit met an on cell. -/
def State.drawn (s : State) (x y : Reg) (n : Fin 16) : Display × Bool :=
  plotSprite s.mem (s.ea 0) ((s.reg x).toNat % 64) ((s.reg y).toNat % 32) n.val s.disp

theorem exec_drw_of_inside {s : State} (x y : Reg) {n : Fin 16}
    (h : n.val = 0 ∨ s.I.toNat + n.val - 1 < Config.memSize) :
    exec (.drw x y n) s = .next ((s.setDisp (s.drawn x y n).1).setReg VF (flagByte (s.drawn x y n).2)) :=
  checkRange_of_inside h

end Sys2Proof.Machine

namespace Sys2Proof.Claims

open Sys2Proof.Machine

/-! ### The row of the opcode table -/

theorem encodedBy_drw : EncodedBy 0xF000 0xD000 (fun op => .drw (fieldX op) (fieldY op) (fieldN op)) :=
  encodedBy_F000 (d := 0xD) (by decide) fun op h => by simp only [decodeWord, h]

/-! ### The drawn sprite, cell by cell -/

/-- `plotSprite_eq` for DRW: the cells covered are those under the sprite's on bits, and a sprite of at most 15 rows is no
taller than the screen. -/
theorem drawn_spec (s : State) (x y : Reg) (n : Fin 16) :
    (∀ px py, ((s.drawn x y n).1.get px py = true ↔ ¬(s.pixel px py = true ↔ spriteOn s x y n px py))) ∧
    ((s.drawn x y n).2 = true ↔ ∃ px py, spriteOn s x y n px py ∧ s.pixel px py = true) :=
  plotSprite_eq s.mem (s.ea 0) _ _ n.val s.disp (n.isLt.le.trans (by decide))

theorem drawn_get_of_spriteOn {s : State} {x y : Reg} {n : Fin 16} {px : Fin 64} {py : Fin 32}
    (h : spriteOn s x y n px py) : (s.drawn x y n).1.get px py = !s.pixel px py := by
  rw [Bool.eq_iff_iff, (drawn_spec s x y n).1, iff_true_right h, Bool.not_eq_true, Bool.not_eq_true']

theorem drawn_get_of_not_spriteOn {s : State} {x y : Reg} {n : Fin 16} {px : Fin 64} {py : Fin 32}
    (h : ¬spriteOn s x y n px py) : (s.drawn x y n).1.get px py = s.pixel px py := by
  rw [Bool.eq_iff_iff, (drawn_spec s x y n).1, iff_false_right h, not_not]

/-- The draw reports a collision when one of the sprite's on bits lies on a cell that was on. -/
theorem drawn_collision_iff {s : State} {x y : Reg} {n : Fin 16} :
    (s.drawn x y n).2 = true ↔ ∃ px py, spriteOn s x y n px py ∧ s.pixel px py = true :=
  (drawn_spec s x y n).2

/-! ### The instructions and the host's read -/

/-- Settles O45: outside memory is R230's condition for the error; otherwise the grid written is the drawn one, and the
flag, written last, is its collision. -/
theorem drawXorsTheSpriteAndReportsCollision : Obligations.DrawXorsTheSpriteAndReportsCollision := by
  refine ⟨encodedBy_drw, fun x y n s =>
    ⟨fun hrows hout => failsUnchanged_iff.mpr ⟨rfl, hrows, hout⟩, fun hin => ?draws⟩⟩
  case draws =>
    have hx := exec_drw_of_inside x y hin
    refine ⟨_, hx, fun px py => drawn_get_of_spriteOn, fun px py => drawn_get_of_not_spriteOn,
      fun hhit => ?collision, fun hmiss => ?noCollision, exec_frame hx⟩
    case collision => rw [State.setReg_reg_self, drawn_collision_iff.mpr hhit]; rfl
    case noCollision =>
      rw [State.setReg_reg_self, Bool.eq_false_iff.mpr fun hc => hmiss (drawn_collision_iff.mp hc)]; rfl

/-- Settles O44: the grid written is the clear one, and the grid is the one part written. -/
theorem clearScreenTurnsEveryCellOff : Obligations.ClearScreenTurnsEveryCellOff :=
  ⟨by decide, fun s => ⟨_, rfl, Display.get_clear, s.setDisp_frame _⟩⟩

/-- Settles O47: what `display` hands over is the state's own grid, and as an operation it answers the state itself. -/
theorem displayReturnsTheGridUnchanged : Obligations.DisplayReturnsTheGridUnchanged :=
  fun _ => ⟨fun _ _ => rfl, rfl⟩

end Sys2Proof.Claims
end

section
/-! Timer and key instructions (45_timers_keys.md): their rows of the opcode table, what each completes with, and the
wait for a key, whose retreat of pc undoes the fetch advance. -/

namespace Sys2Proof.Machine

/-! ### Keys -/

/-- A least key that is down is the one the search finds (R216). -/
theorem State.lowestKeyDown_eq_some {s : State} {k : Key} (hk : s.keyDown k = true)
    (hleast : ∀ j, j < k → s.keyDown j = false) : s.lowestKeyDown = some k := by
  cases hl : s.lowestKeyDown with
  | none => exact absurd hk (Bool.eq_false_iff.mp (State.lowestKeyDown_none_iff.mp hl k))
  | some j =>
    obtain ⟨hj, hbelow⟩ := State.lowestKeyDown_some hl
    obtain hlt | rfl | hgt := lt_trichotomy j k
    · exact absurd hj (Bool.eq_false_iff.mp (hleast j hlt))
    · rfl
    · exact absurd hk (Bool.eq_false_iff.mp (hbelow k hgt))

/-- A key number fits a byte, so FX0A loses nothing of it (R216). -/
theorem key_byte_toNat (k : Key) : (BitVec.ofNat 8 k.val).toNat = k.val :=
  (BitVec.toNat_ofNat ..).trans (Nat.mod_eq_of_lt (k.isLt.trans (by decide)))

/-- Going back undoes the fetch advance, at every pc (R216). -/
@[simp] theorem State.retreatPc_advancePc (s : State) : s.advancePc.retreatPc = s :=
  congrArg s.setPc (BitVec.add_sub_cancel s.pc 2)

/-! ### Completions -/

theorem execute_of_next {i : Instr} {s t : State} (h : exec i s = .next t) : execute i s = .ok t := by
  rw [execute, h]

/-- A register that is a key number skips on that key (R214). -/
theorem exec_skp_of_key {s : State} {x : Reg} {k : Key} (h : (s.reg x).toNat = k.val) :
    exec (.skp x) s = .next (s.skipIf (s.keyDown k)) :=
  (execSkp_eq x s).trans (onDigit_next_iff.mpr ⟨k, h, rfl⟩)

/-- A register that is a key number skips unless that key is down (R215). -/
theorem exec_sknp_of_key {s : State} {x : Reg} {k : Key} (h : (s.reg x).toNat = k.val) :
    exec (.sknp x) s = .next (s.skipIf (!s.keyDown k)) :=
  (execSknp_eq x s).trans (onDigit_next_iff.mpr ⟨k, h, rfl⟩)

theorem exec_ldVxK_of_no_key {s : State} (x : Reg) (h : ∀ k, s.keyDown k = false) :
    exec (.ldVxK x) s = .next s.retreatPc := by
  rw [exec, execLdVxK, State.lowestKeyDown_none_iff.mpr h]

theorem exec_ldVxK_of_least_key {s : State} (x : Reg) {k : Key} (hk : s.keyDown k = true)
    (hleast : ∀ j, j < k → s.keyDown j = false) :
    exec (.ldVxK x) s = .next (s.setReg x (BitVec.ofNat 8 k.val)) := by
  rw [exec, execLdVxK, State.lowestKeyDown_eq_some hk hleast]

end Sys2Proof.Machine

namespace Sys2Proof.Claims

open Sys2Proof.Machine

/-! ### Rows of the opcode table -/

theorem decodeWord_of_d1_fourteen {op : Word} (h : d1 op = 0xE) : decodeWord op = decodeE op := by
  simp only [decodeWord, h]

/-- Within the top nibble E the low byte selects the row. -/
theorem encodedBy_fourteen {e : Nat} {build : Word → Instr} (he : e < 256)
    (hrow : ∀ op, lowByte op = e → decodeE op = .ok (build op)) :
    EncodedBy 0xF0FF (BitVec.ofNat 16 (0xE * 4096 + e)) build :=
  encodedBy_F0FF (by decide) he fun op htop hlow => (decodeWord_of_d1_fourteen htop).trans (hrow op hlow)

theorem encodedBy_skp : EncodedBy 0xF0FF 0xE09E (fun op => .skp (fieldX op)) :=
  encodedBy_fourteen (e := 0x9E) (by decide) fun op h => by simp only [decodeE, h]

theorem encodedBy_sknp : EncodedBy 0xF0FF 0xE0A1 (fun op => .sknp (fieldX op)) :=
  encodedBy_fourteen (e := 0xA1) (by decide) fun op h => by simp only [decodeE, h]

theorem encodedBy_ldVxDT : EncodedBy 0xF0FF 0xF007 (fun op => .ldVxDT (fieldX op)) :=
  encodedBy_fifteen (e := 0x07) (by decide) fun op h => by simp only [decodeF, h]

theorem encodedBy_ldVxK : EncodedBy 0xF0FF 0xF00A (fun op => .ldVxK (fieldX op)) :=
  encodedBy_fifteen (e := 0x0A) (by decide) fun op h => by simp only [decodeF, h]

theorem encodedBy_ldDTVx : EncodedBy 0xF0FF 0xF015 (fun op => .ldDTVx (fieldX op)) :=
  encodedBy_fifteen (e := 0x15) (by decide) fun op h => by simp only [decodeF, h]

theorem encodedBy_ldSTVx : EncodedBy 0xF0FF 0xF018 (fun op => .ldSTVx (fieldX op)) :=
  encodedBy_fifteen (e := 0x18) (by decide) fun op h => by simp only [decodeF, h]

/-! ### Timers -/

/-- Settles O48: the value written is DT, and VX is the one part written. -/
theorem loadVXReadsTheDelayTimer : Obligations.LoadVXReadsTheDelayTimer :=
  ⟨encodedBy_ldVxDT, fun x s => ⟨_, rfl, s.setReg_reg_self x s.DT, s.setReg_frame x s.DT⟩⟩

/-- Settles O49: the value written is VX, and DT is the one part written. -/
theorem loadDelayTimerFromVX : Obligations.LoadDelayTimerFromVX :=
  ⟨encodedBy_ldDTVx, fun x s => ⟨_, rfl, s.setDT_DT (s.reg x), s.setDT_frame (s.reg x)⟩⟩

/-- Settles O50: the value written is VX, and ST is the one part written. -/
theorem loadSoundTimerFromVX : Obligations.LoadSoundTimerFromVX :=
  ⟨encodedBy_ldSTVx, fun x s => ⟨_, rfl, s.setST_ST (s.reg x), s.setST_frame (s.reg x)⟩⟩

/-! ### Keys -/

/-- Settles O51: a value that is no key number is R230's condition for the error, and the skip's test is the key. -/
theorem skipIfKeyDown : Obligations.SkipIfKeyDown :=
  ⟨encodedBy_skp, fun _ _ => ⟨fun hbig => failsUnchanged_iff.mpr ⟨rfl, hbig⟩, fun _ hkey =>
    exec_skip (exec_skp_of_key hkey) id id⟩⟩

/-- Settles O52: a value that is no key number is R230's condition for the error, and the skip's test is the key's
negation. -/
theorem skipIfKeyNotDown : Obligations.SkipIfKeyNotDown :=
  ⟨encodedBy_sknp, fun _ _ => ⟨fun hbig => failsUnchanged_iff.mpr ⟨rfl, hbig⟩, fun _ hkey =>
    exec_skip (exec_sknp_of_key hkey) (Bool.not_eq_true' _).mpr (Bool.not_eq_false' _).mpr⟩⟩

/-- Settles O53: the search finds no key or the least one; with none, the tick goes back by what its fetch advanced. -/
theorem loadKeyTakesTheLowestOrWaits : Obligations.LoadKeyTakesTheLowestOrWaits := by
  refine ⟨encodedBy_ldVxK, fun x s => ⟨fun hnone => ?waits, fun k hk hleast => ?takes⟩, fun op x s hf hd hnone => ?tick⟩
  case waits => exact ⟨_, exec_ldVxK_of_no_key x hnone, s.retreatPc_pc, s.retreatPc_frame⟩
  case takes =>
    refine ⟨_, exec_ldVxK_of_least_key x hk hleast, ?_, s.setReg_frame x _⟩
    rw [State.setReg_reg_self, key_byte_toNat]
  case tick =>
    calc tick s = execute (.ldVxK x) s.advancePc := tick_of_decode_ok hf hd
      _ = .ok s.advancePc.retreatPc := execute_of_next (exec_ldVxK_of_no_key (s := s.advancePc) x hnone)
      _ = .ok s := congrArg OpResult.ok s.retreatPc_advancePc

end Sys2Proof.Claims
end

section
/-! R230's table beyond the instructions' own errors (60_exceptions.md): no instruction is refused, fetch fails on its
bound and `load` on its size alone, and a fetched word is reported iff it is on the list of illegal words.  Then the
countdown of the timers (R244). -/

namespace Sys2Proof.Machine

/-! ### No refusals -/

theorem onDigit_not_refused {n : Nat} {v : Byte} {done : Fin n → State} {r : Refusal} : onDigit n v done ≠ .refused r := by
  unfold onDigit
  split <;> exact nofun

theorem execRet_not_refused {s : State} {r : Refusal} : execRet s ≠ .refused r := by
  unfold execRet
  split <;> exact nofun

theorem execCall_not_refused {nnn : Addr} {s : State} {r : Refusal} : execCall nnn s ≠ .refused r := by
  unfold execCall
  split <;> exact nofun

/-- Every instruction has its meaning: the shared checks answer `next` or `fault`, and the other instructions only
`next` or, for SYS, `fault`. -/
theorem exec_not_refused {i : Instr} {s : State} {r : Refusal} : exec i s ≠ .refused r := by
  cases i with
  | ret => exact execRet_not_refused
  | call => exact execCall_not_refused
  | skp x => exact (execSkp_eq x s).trans_ne onDigit_not_refused
  | sknp x => exact (execSknp_eq x s).trans_ne onDigit_not_refused
  | ldF x => exact (execLdF_eq x s).trans_ne onDigit_not_refused
  | drw | ldB | ldMemVx | ldVxMem =>
    simp only [exec, execDrw, execLdB, execLdMemVx, execLdVxMem]
    exact checkRange_not_refused
  | _ => exact nofun

/-! ### Fetch and load -/

theorem fetch_error_iff {s : State} {e : Fault} :
    fetch s = .error e ↔ e = .outOfBounds ∧ Config.memSize ≤ s.pc.toNat + 1 := by
  refine ⟨fun h => ⟨fetch_error_outOfBounds h, ?outside⟩, fun ⟨he, hout⟩ => he ▸ fetch_of_outside hout⟩
  case outside =>
    by_contra hin
    exact nomatch h.symm.trans (fetch_of_inside (Nat.not_le.mp hin))

/-- What a failed `load` answers: the error of the size check, and the state it was given (R262). -/
theorem load_err_iff {bytes : List Byte} {s t : State} {e : Fault} :
    load bytes s = .err e t ↔ e = .outOfBounds ∧ t = s ∧ romSpace < bytes.length := by
  unfold load
  split <;> simp_all [eq_comm]

/-! ### Timers -/

/-- Truncated subtraction is the floor at 0. -/
theorem countDown_toNat (v : TimerByte) : (countDown v).toNat = v.toNat - 1 := by
  unfold countDown
  split
  · simp_all
  · bv_omega

end Sys2Proof.Machine

namespace Sys2Proof.Claims

open Sys2Proof.Machine

/-! ### The errors of R230 -/

/-- A tick that has fetched a word reports InvalidOpcode iff the word is on R96's list: such a word fails in decode or is
SYS, and R116's table has the error in no other row of a tick that fetches. -/
theorem illegalWord_iff_tick_invalidOpcode {s : State} {op : Word} (hf : fetch s = .ok op) :
    illegalWord op ↔ ∃ t, tick s = .err .invalidOpcode t := by
  refine ⟨fun hill => ?reports, fun ⟨t, ht⟩ => ?listed⟩
  case reports =>
    cases hd : decodeWord op with
    | error d => exact ⟨_, tick_of_decode_error hf hd⟩
    | ok i =>
      obtain ⟨nnn, rfl⟩ := (illegalWord_iff_sys hd).mp hill
      exact ⟨_, tick_of_decode_ok hf hd⟩
  case listed =>
    obtain ⟨-, he, -⟩ | ⟨op', hf', hill, -⟩ | ⟨-, -, -, he, -⟩ := failedTickLeavesTheStateOfR116 s t _ ht
    · cases he
    · rwa [Except.ok.inj (hf.symm.trans hf')]
    · exact he.elim nofun nofun

/-- Settles O11: R230's table read off the instructions, the fetch, the word fetched and the size check of `load`; the
other operations answer Ok by definition. -/
theorem errorsAreRaisedExactlyWhenR230Says : Obligations.ErrorsAreRaisedExactlyWhenR230Says := by
  refine ⟨fun _ _ _ => exec_fault_iff, fun _ _ _ => exec_not_refused, fun _ _ => fetch_error_iff,
    fun _ _ => illegalWord_iff_tick_invalidOpcode, fun bytes s e => ?load, fun _ => ⟨⟨_, rfl⟩, ⟨_, rfl⟩, rfl⟩⟩
  case load =>
    simp only [load_err_iff]
    exact ⟨fun ⟨_, he, _, hlen⟩ => ⟨he, hlen⟩, fun ⟨he, hlen⟩ => ⟨s, he, rfl, hlen⟩⟩

/-! ### The timers -/

/-- Settles O54: each timer is written its own countdown, and the two writes are all there is. -/
theorem decrementTimersFloorsAtZero : Obligations.DecrementTimersFloorsAtZero :=
  fun s => ⟨_, rfl, countDown_toNat s.DT, countDown_toNat s.ST, (s.setDT_frame _).trans (State.setST_frame _ _)⟩

end Sys2Proof.Claims
end

section
/-! The settled statement on `load` (70_reset_and_hazards.md R262): the size check decides between the whole ROM and none
of it. -/

namespace Sys2Proof.Machine

/-- Byte k of a block stored at `a` is read at `a + k`, for any base address. -/
theorem State.storeBytes_byte_add (s : State) (a : Nat) {bs : List Byte} {k : Nat} (h : k < bs.length) :
    (s.storeBytes a bs).byte (a + k) = bs[k] := by
  rw [State.storeBytes_byte, Memory.read_writeList, if_pos (by omega), Nat.add_sub_cancel_left,
    List.getD_eq_getElem _ _ h]

theorem load_of_fits {bytes : List Byte} (s : State) (h : bytes.length ≤ romSpace) :
    load bytes s = .ok (s.storeBytes Config.loadAddr bytes) := if_pos h

end Sys2Proof.Machine

namespace Sys2Proof.Claims

open Sys2Proof.Machine

/-- Settles O56: a ROM longer than `romSpace` meets the one error of `load`; one that fits is stored at 0x200 as one
block, whose bytes and frame are those of `storeBytes`. -/
theorem loadCopiesTheRomOrRejectsIt : Obligations.LoadCopiesTheRomOrRejectsIt := by
  refine fun bytes s => ⟨fun hlong => ?rejected, fun hfits => ?copied⟩
  case rejected => exact load_err_iff.mpr ⟨rfl, rfl, hlong⟩
  case copied =>
    exact ⟨_, load_of_fits s hfits, fun _ hk => s.storeBytes_byte_add _ hk, s.storeBytes_frame _ bytes⟩

end Sys2Proof.Claims
end

section
/-! The opcode table, the encoder and the decoder (30_encoding.md R80 to R86): every instruction stands in its row, every
row decodes to what it builds, and every word that decodes is put together again by the encoder. -/

namespace Sys2Proof

open Sys2Proof.Machine

/-! ### An opcode put together from its fields (R82, R83) -/

theorem packNNN_fields {op : Word} {d : Nat} (hd : d1 op = d) : packNNN d (fieldNNN op) = op.toNat := by
  rw [packNNN, fieldNNN_toNat, ← hd, d1]
  omega

theorem packXNN_fields {op : Word} {d : Nat} (hd : d1 op = d) : packXNN d (fieldX op) (fieldNN op) = op.toNat := by
  rw [packXNN, fieldX_val, fieldNN_toNat, ← hd, d1]
  omega

theorem packXYN_fields {op : Word} {d : Nat} {n : Fin 16} (hd : d1 op = d) (hn : d4 op = n.val) :
    packXYN d (fieldX op) (fieldY op) n = op.toNat := by
  rw [packXYN, fieldX_val, fieldY_val, ← hd, ← hn, d1, d4]
  omega

theorem packX_fields {op : Word} {d e : Nat} (hd : d1 op = d) (he : lowByte op = e) :
    packX d (fieldX op) e = op.toNat := by
  rw [packX, fieldX_val, ← hd, ← he, d1, lowByte]
  omega

/-! ### The rows with a top nibble 0 -/

/-- The address of SYS tells its word from those of CLS and RET. -/
theorem wellFormed_sys_iff {op : Word} (h : d1 op = 0) :
    (Instr.sys (fieldNNN op)).wellFormed = true ↔ op ≠ 0x00E0 ∧ op ≠ 0x00EE := by
  have hop : (fieldNNN op).toNat = op.toNat := by
    have hpack := packNNN_fields h
    rwa [packNNN, Nat.zero_mul, Nat.zero_add] at hpack
  simp only [Instr.wellFormed, sysOperandOk, Bool.and_eq_true, bne_iff_ne, ne_eq, ← BitVec.toNat_inj, hop]
  rfl

end Sys2Proof

namespace Sys2Proof.Claims

open Sys2Proof.Machine Sys2Proof.Laws

/-! ### Every row decodes to what it builds -/

/-- The word of a row decodes to the instruction the row builds, unless that is a `sys` on the word of an earlier row. -/
def RowDecodes (r : OpcodeRow) : Prop :=
  ∀ op : Word, r.fits op = true → (r.build op).wellFormed = true → decodeWord op = .ok (r.build op)

/-! The first three rows overlap: 00E0 and 00EE fit the row of SYS too. -/

def clsRow : OpcodeRow := ⟨0xFFFF, 0x00E0, fun _ => .cls⟩
def retRow : OpcodeRow := ⟨0xFFFF, 0x00EE, fun _ => .ret⟩
def sysRow : OpcodeRow := ⟨0xF000, 0x0000, fun op => .sys (fieldNNN op)⟩

theorem opcodeTable_eq : opcodeTable = clsRow :: retRow :: sysRow :: opcodeTable.drop 3 := rfl

/-- A mask of all ones fits one word only. -/
theorem fits_word_iff {value op : Word} {build : Word → Instr} :
    OpcodeRow.fits ⟨0xFFFF, value, build⟩ op = true ↔ op = value := by
  have hmask : op &&& 0xFFFF = op := BitVec.and_allOnes
  rw [OpcodeRow.fits, hmask, beq_iff_eq]

theorem fits_sysRow_iff {op : Word} : sysRow.fits op = true ↔ d1 op = 0 :=
  beq_iff_eq.trans (fits_F000_iff op 0 (by decide))

theorem rowDecodes_word {value : Word} {i : Instr} (h : decodeWord value = .ok i) :
    RowDecodes ⟨0xFFFF, value, fun _ => i⟩ := by
  intro op hfits _
  rw [fits_word_iff.mp hfits, h]

theorem rowDecodes_sysRow : RowDecodes sysRow := by
  intro op hfits hwf
  have htop : d1 op = 0 := fits_sysRow_iff.mp hfits
  obtain ⟨hcls, hret⟩ := (wellFormed_sys_iff htop).mp hwf
  rw [decodeWord_of_d1_zero htop, decode0_of_ne hcls hret]
  rfl

/-- The rows from 1NNN on decode whatever word fits them. -/
theorem encodedBy_of_mem_drop_three {r : OpcodeRow} (h : r ∈ opcodeTable.drop 3) :
    EncodedBy r.mask r.value r.build := by
  revert r
  simp only [opcodeTable, opcodeRows1, opcodeRows2, opcodeRows3, List.cons_append, List.nil_append, List.drop_succ_cons,
    List.drop_zero, List.forall_mem_cons]
  exact ⟨encodedBy_jp, encodedBy_call, encodedBy_seImm, encodedBy_sneImm, encodedBy_seReg, encodedBy_ldImm,
    encodedBy_addImm, encodedBy_ldReg, encodedBy_orReg, encodedBy_andReg, encodedBy_xorReg, encodedBy_addReg,
    encodedBy_sub, encodedBy_shr, encodedBy_subn, encodedBy_shl, encodedBy_sneReg, encodedBy_ldI, encodedBy_jpV0,
    encodedBy_rnd, encodedBy_drw, encodedBy_skp, encodedBy_sknp, encodedBy_ldVxDT, encodedBy_ldVxK, encodedBy_ldDTVx,
    encodedBy_ldSTVx, encodedBy_addI, encodedBy_ldF, encodedBy_ldB, encodedBy_ldMemVx, encodedBy_ldVxMem, nofun⟩

theorem rowDecodes_of_mem {r : OpcodeRow} (h : r ∈ opcodeTable) : RowDecodes r := by
  rw [opcodeTable_eq] at h
  simp only [List.mem_cons] at h
  obtain rfl | rfl | rfl | hlater := h
  · exact rowDecodes_word (by decide)
  · exact rowDecodes_word (by decide)
  · exact rowDecodes_sysRow
  · exact fun op hfits _ => encodedBy_of_mem_drop_three hlater op (beq_iff_eq.mp hfits)

/-! ### Every instruction stands in its row -/

/-- An instruction's word fits a row that builds the instruction again. -/
def HasRow (i : Instr) : Prop := ∃ r ∈ opcodeTable, r.fits (encode i) = true ∧ r.build (encode i) = i

/-- The word of `i` has the fixed bits of row k, counted from 0. -/
def FitsRow (k : Fin 35) (i : Instr) : Prop := encode i &&& opcodeTable[k.val].mask = opcodeTable[k.val].value

theorem hasRow_of_fitsRow {i : Instr} (k : Fin 35) (hfits : FitsRow k i)
    (hbuild : opcodeTable[k.val].build (encode i) = i) : HasRow i :=
  ⟨_, List.getElem_mem _, beq_iff_eq.mpr hfits, hbuild⟩

theorem hasRow_nnn (k : Fin 35) (make : Addr → Instr) {d : Nat} {nnn : Addr}
    (hbuild : opcodeTable[k.val].build = fun op => make (fieldNNN op))
    (hpack : encodeNat (make nnn) = packNNN d nnn) (hfits : FitsRow k (make nnn)) : HasRow (make nnn) :=
  hasRow_of_fitsRow k hfits (by simp only [hbuild, fields_packNNN hpack])

theorem hasRow_xnn (k : Fin 35) (make : Reg → Byte → Instr) {d : Nat} {x : Reg} {nn : Byte}
    (hbuild : opcodeTable[k.val].build = fun op => make (fieldX op) (fieldNN op))
    (hpack : encodeNat (make x nn) = packXNN d x nn) (hfits : FitsRow k (make x nn)) : HasRow (make x nn) :=
  hasRow_of_fitsRow k hfits (by simp only [hbuild, fields_packXNN hpack])

theorem hasRow_xy (k : Fin 35) (make : Reg → Reg → Instr) {d : Nat} {x y : Reg} {n : Fin 16}
    (hbuild : opcodeTable[k.val].build = fun op => make (fieldX op) (fieldY op))
    (hpack : encodeNat (make x y) = packXYN d x y n) (hfits : FitsRow k (make x y)) : HasRow (make x y) :=
  hasRow_of_fitsRow k hfits (by simp only [hbuild, fields_packXYN hpack])

theorem hasRow_xyn (k : Fin 35) (make : Reg → Reg → Fin 16 → Instr) {d : Nat} {x y : Reg} {n : Fin 16}
    (hbuild : opcodeTable[k.val].build = fun op => make (fieldX op) (fieldY op) (fieldN op))
    (hpack : encodeNat (make x y n) = packXYN d x y n) (hfits : FitsRow k (make x y n)) : HasRow (make x y n) :=
  hasRow_of_fitsRow k hfits (by simp only [hbuild, fields_packXYN hpack])

theorem hasRow_x (k : Fin 35) (make : Reg → Instr) {d e : Nat} {x : Reg} (he : e < 256)
    (hbuild : opcodeTable[k.val].build = fun op => make (fieldX op))
    (hpack : encodeNat (make x) = packX d x e) (hfits : FitsRow k (make x)) : HasRow (make x) :=
  hasRow_of_fitsRow k hfits (by simp only [hbuild, fields_packX hpack he])

theorem hasRow (i : Instr) : HasRow i := by
  cases i with
  | cls => exact hasRow_of_fitsRow 0 TableRow.cls rfl
  | ret => exact hasRow_of_fitsRow 1 TableRow.ret rfl
  | sys nnn => exact hasRow_nnn 2 .sys rfl rfl (TableRow.sys nnn)
  | jp nnn => exact hasRow_nnn 3 .jp rfl rfl (TableRow.jp nnn)
  | call nnn => exact hasRow_nnn 4 .call rfl rfl (TableRow.call nnn)
  | seImm x nn => exact hasRow_xnn 5 .seImm rfl rfl (TableRow.seImm x nn)
  | sneImm x nn => exact hasRow_xnn 6 .sneImm rfl rfl (TableRow.sneImm x nn)
  | seReg x y => exact hasRow_xy 7 .seReg rfl rfl (TableRow.seReg x y)
  | ldImm x nn => exact hasRow_xnn 8 .ldImm rfl rfl (TableRow.ldImm x nn)
  | addImm x nn => exact hasRow_xnn 9 .addImm rfl rfl (TableRow.addImm x nn)
  | ldReg x y => exact hasRow_xy 10 .ldReg rfl rfl (TableRow.ldReg x y)
  | orReg x y => exact hasRow_xy 11 .orReg rfl rfl (TableRow.orReg x y)
  | andReg x y => exact hasRow_xy 12 .andReg rfl rfl (TableRow.andReg x y)
  | xorReg x y => exact hasRow_xy 13 .xorReg rfl rfl (TableRow.xorReg x y)
  | addReg x y => exact hasRow_xy 14 .addReg rfl rfl (TableRow.addReg x y)
  | sub x y => exact hasRow_xy 15 .sub rfl rfl (TableRow.sub x y)
  | shr x y => exact hasRow_xy 16 .shr rfl rfl (TableRow.shr x y)
  | subn x y => exact hasRow_xy 17 .subn rfl rfl (TableRow.subn x y)
  | shl x y => exact hasRow_xy 18 .shl rfl rfl (TableRow.shl x y)
  | sneReg x y => exact hasRow_xy 19 .sneReg rfl rfl (TableRow.sneReg x y)
  | ldI nnn => exact hasRow_nnn 20 .ldI rfl rfl (TableRow.ldI nnn)
  | jpV0 nnn => exact hasRow_nnn 21 .jpV0 rfl rfl (TableRow.jpV0 nnn)
  | rnd x nn => exact hasRow_xnn 22 .rnd rfl rfl (TableRow.rnd x nn)
  | drw x y n => exact hasRow_xyn 23 .drw rfl rfl (TableRow.drw x y n)
  | skp x => exact hasRow_x 24 .skp (by decide) rfl rfl (TableRow.skp x)
  | sknp x => exact hasRow_x 25 .sknp (by decide) rfl rfl (TableRow.sknp x)
  | ldVxDT x => exact hasRow_x 26 .ldVxDT (by decide) rfl rfl (TableRow.ldVxDT x)
  | ldVxK x => exact hasRow_x 27 .ldVxK (by decide) rfl rfl (TableRow.ldVxK x)
  | ldDTVx x => exact hasRow_x 28 .ldDTVx (by decide) rfl rfl (TableRow.ldDTVx x)
  | ldSTVx x => exact hasRow_x 29 .ldSTVx (by decide) rfl rfl (TableRow.ldSTVx x)
  | addI x => exact hasRow_x 30 .addI (by decide) rfl rfl (TableRow.addI x)
  | ldF x => exact hasRow_x 31 .ldF (by decide) rfl rfl (TableRow.ldF x)
  | ldB x => exact hasRow_x 32 .ldB (by decide) rfl rfl (TableRow.ldB x)
  | ldMemVx x => exact hasRow_x 33 .ldMemVx (by decide) rfl rfl (TableRow.ldMemVx x)
  | ldVxMem x => exact hasRow_x 34 .ldVxMem (by decide) rfl rfl (TableRow.ldVxMem x)

/-- The encoder's word decodes to the instruction: it fits a row that builds the instruction, and that row decodes it. -/
theorem decodeWord_encode {i : Instr} (hwf : i.wellFormed = true) : decodeWord (encode i) = .ok i := by
  obtain ⟨r, hr, hfits, hbuild⟩ := hasRow i
  rw [rowDecodes_of_mem hr _ hfits (hbuild.symm ▸ hwf), hbuild]

/-- Settles O1: the two bytes of a word are read back as the word, which decodes through the instruction's own row. -/
theorem decodeOfEncodeIsTheInstruction : Obligations.DecodeOfEncodeIsTheInstruction := by
  intro i hwf
  have hword := decodeWord_encode hwf
  refine ⟨hword, ?bytes⟩
  case bytes => rw [encodeBytes, decode, wordOfBytes_split, hword]; rfl

/-! ### Every word that decodes is put together again -/

/-- What the decoder answers for `op`, if it answers an instruction, stands for `op`: it is well-formed, and the encoder
packs its fields to the opcode. -/
def StandsFor (op : Word) (r : Except DecodeError Instr) : Prop :=
  ∀ i, r = .ok i → i.wellFormed = true ∧ encodeNat i = op.toNat

@[simp] theorem standsFor_ok_iff {op : Word} {i : Instr} :
    StandsFor op (.ok i) ↔ i.wellFormed = true ∧ encodeNat i = op.toNat := by
  simp [StandsFor]

@[simp] theorem standsFor_error (op : Word) (d : DecodeError) : StandsFor op (.error d) := nofun

/-- The form of the rows 5XY0 and 9XY0, which decode under a condition. -/
theorem standsFor_ite {op : Word} {c : Prop} [Decidable c] {i : Instr} {d : DecodeError}
    (h : c → StandsFor op (.ok i)) : StandsFor op (if c then .ok i else .error d) := by
  split_ifs with hc
  · exact h hc
  · exact standsFor_error op d

theorem standsFor_decode0 {op : Word} (hd : d1 op = 0) : StandsFor op (.ok (decode0 op)) := by
  rw [standsFor_ok_iff]
  by_cases hcls : op = 0x00E0
  · rw [hcls]; decide
  by_cases hret : op = 0x00EE
  · rw [hret]; decide
  · rw [decode0_of_ne hcls hret]
    exact ⟨(wellFormed_sys_iff hd).mpr ⟨hcls, hret⟩, packNNN_fields hd⟩

theorem standsFor_decode8 {op : Word} (hd : d1 op = 8) : StandsFor op (decode8 op) := by
  unfold decode8
  split
  case h_10 => exact standsFor_error _ _
  all_goals exact standsFor_ok_iff.mpr ⟨rfl, packXYN_fields hd ‹d4 op = _›⟩

theorem standsFor_decodeE {op : Word} (hd : d1 op = 14) : StandsFor op (decodeE op) := by
  unfold decodeE
  split
  case h_3 => exact standsFor_error _ _
  all_goals exact standsFor_ok_iff.mpr ⟨rfl, packX_fields hd ‹lowByte op = _›⟩

theorem standsFor_decodeF {op : Word} (hd : d1 op = 15) : StandsFor op (decodeF op) := by
  unfold decodeF
  split
  case h_10 => exact standsFor_error _ _
  all_goals exact standsFor_ok_iff.mpr ⟨rfl, packX_fields hd ‹lowByte op = _›⟩

/-- Along the values of the top nibble: the rows that select further go by the lemma of their group, and every other row
packs the fields it was built from. -/
theorem standsFor_decodeWord (op : Word) : StandsFor op (decodeWord op) := by
  unfold decodeWord
  split
  case h_1 hd => exact standsFor_decode0 hd
  case h_6 hd | h_10 hd => exact standsFor_ite fun hlow => standsFor_ok_iff.mpr ⟨rfl, packXYN_fields hd hlow⟩
  case h_9 hd => exact standsFor_decode8 hd
  case h_14 hd => exact standsFor_ok_iff.mpr ⟨rfl, packXYN_fields hd rfl⟩
  case h_15 hd => exact standsFor_decodeE hd
  case h_16 => exact standsFor_decodeF (by have := d1_lt op; grind)
  case h_2 hd | h_3 hd | h_11 hd | h_12 hd => exact standsFor_ok_iff.mpr ⟨rfl, packNNN_fields hd⟩
  all_goals exact standsFor_ok_iff.mpr ⟨rfl, packXNN_fields ‹d1 op = _›⟩

/-- Settles O2: no bit of a word that decodes is lost, since the encoder packs the decoded fields to the word. -/
theorem encodeOfDecodeIsTheWord : Obligations.EncodeOfDecodeIsTheWord := by
  intro op i h
  obtain ⟨hwf, hpack⟩ := standsFor_decodeWord op i h
  exact ⟨hwf, BitVec.eq_of_toNat_eq ((encode_toNat i).trans hpack)⟩

/-! ### The first match in the table -/

/-- What the first row that fits builds is well-formed: SYS builds anything else only on the words of the two rows before
it. -/
theorem wellFormed_of_find? {op : Word} {r : OpcodeRow} (h : opcodeTable.find? (fun r => r.fits op) = some r) :
    (r.build op).wellFormed = true := by
  have hne {value : Word} {build : Word → Instr} (hno : OpcodeRow.fits ⟨0xFFFF, value, build⟩ op = false) :
      op ≠ value := fun heq => Bool.eq_false_iff.mp hno (fits_word_iff.mpr heq)
  rw [opcodeTable_eq, List.find?_cons, List.find?_cons, List.find?_cons] at h
  split at h
  next => cases h; rfl
  next hcls =>
    split at h
    next => cases h; rfl
    next hret =>
      split at h
      next hsys =>
        cases h
        exact (wellFormed_sys_iff (fits_sysRow_iff.mp hsys)).mpr ⟨hne hcls, hne hret⟩
      next =>
        have hfits : r.fits op = true := List.find?_some (p := (OpcodeRow.fits · op)) h
        have hdecode := encodedBy_of_mem_drop_three (List.mem_of_find?_eq_some h) op (beq_iff_eq.mp hfits)
        obtain ⟨hwf, -⟩ := encodeOfDecodeIsTheWord op _ hdecode
        exact hwf

theorem exists_fits_of_decodeWord {op : Word} {i : Instr} (h : decodeWord op = .ok i) :
    ∃ r ∈ opcodeTable, r.fits op = true := by
  obtain ⟨r, hr, hfits, -⟩ := hasRow i
  rw [(encodeOfDecodeIsTheWord op i h).2] at hfits
  exact ⟨r, hr, hfits⟩

/-- Settles O3: the first row that fits builds a well-formed instruction, which is what the word decodes to; and a word
that decodes fits the row of its instruction. -/
theorem decoderIsFirstMatchInTheOpcodeTable : Obligations.DecoderIsFirstMatchInTheOpcodeTable := by
  refine ⟨rfl, fun op => ⟨fun r hr => ?first, fun hnone => ?noRow⟩⟩
  case first =>
    have hfits : r.fits op = true := List.find?_some (p := (OpcodeRow.fits · op)) hr
    exact rowDecodes_of_mem (List.mem_of_find?_eq_some hr) op hfits (wellFormed_of_find? hr)
  case noRow =>
    cases hd : decodeWord op with
    | error d => exact ⟨d, rfl⟩
    | ok i =>
      obtain ⟨r, hr, hfits⟩ := exists_fits_of_decodeWord hd
      exact absurd hfits (List.find?_eq_none.mp hnone r hr)

/-! ### The illegal words -/

/-- Settles O4: the list is exact by the decoder's groups, and a word on it fails in decode or is SYS, whose meaning
raises the same error on the same state. -/
theorem illegalWordsRaiseInvalidOpcode : Obligations.IllegalWordsRaiseInvalidOpcode := by
  refine ⟨fun _ => illegalWord_iff_not_executable, fun s op hf hill => ?tick⟩
  case tick =>
    cases hd : decodeWord op with
    | error d => exact tick_of_decode_error hf hd
    | ok i =>
      obtain ⟨nnn, rfl⟩ := (illegalWord_iff_sys hd).mp hill
      exact tick_of_decode_ok hf hd

/-- Settles O5: twelve fixed words, each decoded by computation. -/
theorem specWordsDecodeAsTheSpecSays : Obligations.SpecWordsDecodeAsTheSpecSays := by
  refine ⟨?_, ?_, ?_, ?_, ?_, ?_, ?_, ?_, ?_, ?_, ?_, ?_⟩ <;> decide

end Sys2Proof.Claims
end

section
/-! The invariant (10_state.md R26, R37): what a tick writes to pc as an unbounded integer, what an instruction does to
memory and to the return addresses, and the operations of the host. -/

namespace Sys2Proof.Machine

/-! ### The fetch advance and the skips, without a wrap -/

theorem toNat_add_two {w : Word} (h : w.toNat + 2 < 65536) : (w + 2).toNat = w.toNat + 2 :=
  BitVec.toNat_add_of_lt h

theorem State.advancePc_toNat {s : State} (h : s.pc.toNat + 1 < Config.memSize) :
    s.advancePc.pc.toNat = s.pc.toNat + 2 := by
  rw [Config.memSize] at h
  exact toNat_add_two (by omega)

/-- A skip after a fetch reaches 4 past the fetched instruction at most (41_control_flow.md R140). -/
theorem State.skipIf_advancePc_toNat {s : State} (h : s.pc.toNat + 1 < Config.memSize) (c : Bool) :
    (s.advancePc.skipIf c).pc.toNat = s.pc.toNat + 2 ∨ (s.advancePc.skipIf c).pc.toNat = s.pc.toNat + 4 := by
  have hnext := State.advancePc_toNat h
  rw [Config.memSize] at h
  cases c with
  | false => exact .inl hnext
  | true => exact .inr ((toNat_add_two (by omega)).trans (congrArg (· + 2) hnext))

/-! ### Instructions that complete -/

theorem execute_outcome (i : Instr) (s : State) : (execute i s).outcome = exec i s := by
  unfold execute
  cases exec i s <;> rfl

/-- RET that completes popped the latest return address into pc (R132). -/
theorem execRet_next {s t : State} (h : execRet s = .next t) :
    ∃ hsp : 0 < s.sp.val,
      ({ s with sp := ⟨s.sp.val - 1, by omega⟩ } : State).setPc (s.stack[s.sp.val - 1]'(by omega)) = t := by
  have hsp : 0 < s.sp.val := by
    by_contra hempty
    exact nomatch h.symm.trans (execRet_fault_iff.mpr ⟨rfl, Nat.eq_zero_of_not_pos hempty⟩)
  exact ⟨hsp, Host.Outcome.next.inj ((execRet_of_nonempty hsp).symm.trans h)⟩

/-- CALL that completes pushed pc and jumped (R134). -/
theorem execCall_next {nnn : Addr} {s t : State} (h : execCall nnn s = .next t) :
    ∃ hsp : s.sp.val < 16,
      ({ s with stack := s.stack.set s.sp.val s.pc, sp := ⟨s.sp.val + 1, by omega⟩ } : State).setPc (addrWord nnn) = t := by
  have hsp : s.sp.val < 16 := by
    by_contra hfull
    exact nomatch h.symm.trans (execCall_fault_iff.mpr ⟨rfl, by omega⟩)
  exact ⟨hsp, Host.Outcome.next.inj ((execCall_of_not_full nnn hsp).symm.trans h)⟩

/-! ### Memory -/

theorem State.skipIf_mem (s : State) (c : Bool) : (s.skipIf c).mem = s.mem := by
  rw [State.skipIf_eq, State.setPc_mem]

theorem onDigit_mem {n : Nat} {v : Byte} {done : Fin n → State} {m : Memory} {t : State}
    (hdone : ∀ d, (done d).mem = m) (h : onDigit n v done = .next t) : t.mem = m := by
  obtain ⟨d, -, rfl⟩ := onDigit_next_iff.mp h
  exact hdone d

theorem checkRange_mem {a n : Nat} {u : State} {m : Memory} {t : State} (hu : u.mem = m)
    (h : checkRange a n (.next u) = .next t) : t.mem = m := by
  obtain ⟨-, rfl⟩ := checkRange_next_iff.mp h
  exact hu

/-- A store whose range check passes keeps the canonical form. -/
theorem storeBytes_keeps_wf {s t : State} {a n : Nat} {bs : List Byte} (hn : bs.length = n) (hwf : s.mem.wf = true)
    (h : checkRange a n (.next (s.storeBytes a bs)) = .next t) : t.mem.wf = true := by
  obtain ⟨hrange, rfl⟩ := checkRange_next_iff.mp h
  obtain hnil | hin := hrange
  · rwa [List.eq_nil_of_length_eq_zero (hn.trans hnil)]
  · exact Memory.wf_writeList hwf (hn ▸ hin)

/-- FX33 and FX55 store inside memory, and the other instructions leave it. -/
theorem exec_keeps_wf {i : Instr} {s t : State} (h : exec i s = .next t) (hwf : s.mem.wf = true) : t.mem.wf = true := by
  cases i with
  | ldB x => exact storeBytes_keeps_wf (a := s.ea 0) (bcdDigits_length (s.reg x)) hwf h
  | ldMemVx x => exact storeBytes_keeps_wf (a := s.ea 0) (s.regsUpTo_length x) hwf h
  | ldVxMem x => rwa [checkRange_mem (a := s.ea 0) (n := x.val + 1) (s.loadRegs_mem (s.ea 0) (x.val + 1)) h]
  | drw x y n => rwa [checkRange_mem rfl h]
  | ret =>
    obtain ⟨-, rfl⟩ := execRet_next h
    exact hwf
  | call nnn =>
    obtain ⟨-, rfl⟩ := execCall_next h
    exact hwf
  | skp x => rwa [onDigit_mem (fun _ => s.skipIf_mem _) ((execSkp_eq x s).symm.trans h)]
  | sknp x => rwa [onDigit_mem (fun _ => s.skipIf_mem _) ((execSknp_eq x s).symm.trans h)]
  | ldF x => rwa [onDigit_mem (fun _ => s.setI_mem _) ((execLdF_eq x s).symm.trans h)]
  | seImm | sneImm | seReg | sneReg => cases h; rwa [State.skipIf_mem]
  | ldVxK x => cases h; split <;> assumption
  | sys => cases h
  | _ => cases h; exact hwf

end Sys2Proof.Machine

namespace Sys2Proof.Claims

open Sys2Proof.Machine

/-! ### Return addresses -/

theorem stackBounded_of_sp_le {s t : State} (hb : s.stackBounded = true) (hsp : t.sp.val ≤ s.sp.val)
    (hstack : ∀ k : StackIndex, t.stack[k] = s.stack[k]) : t.stackBounded = true := by
  rw [State.stackBounded_iff] at hb ⊢
  intro k hk
  rw [hstack k]
  exact hb k (by omega)

/-- CALL adds one return address, the pc it was given. -/
theorem execCall_keeps_stackBounded {nnn : Addr} {s t : State} (h : execCall nnn s = .next t)
    (hb : s.stackBounded = true) (hpc : s.pc.toNat ≤ Config.memSize) : t.stackBounded = true := by
  obtain ⟨hsp, rfl⟩ := execCall_next h
  rw [State.stackBounded_iff] at hb ⊢
  intro k hk
  by_cases hnew : s.sp.val = k.val
  · simpa [hnew] using hpc
  · have hk' : k.val < s.sp.val + 1 := hk
    simpa [hnew] using hb k (by omega)

theorem exec_keeps_stackBounded {i : Instr} {s t : State} (h : exec i s = .next t) (hb : s.stackBounded = true)
    (hpc : s.pc.toNat ≤ Config.memSize) : t.stackBounded = true := by
  cases i with
  | ret =>
    obtain ⟨-, rfl⟩ := execRet_next h
    exact stackBounded_of_sp_le hb (Nat.sub_le ..) fun _ => rfl
  | call nnn => exact execCall_keeps_stackBounded h hb hpc
  | _ =>
    have hsp : t.sp = s.sp := exec_frame h .sp (by simp [writes])
    exact stackBounded_of_sp_le hb hsp.le fun k => exec_frame h (.stackEntry k) (by simp [writes])

/-! ### The program counter after a tick -/

theorem onDigit_skip_toNat {n : Nat} {v : Byte} {c : Fin n → Bool} {s t : State}
    (hin : s.pc.toNat + 1 < Config.memSize) (h : onDigit n v (fun d => s.advancePc.skipIf (c d)) = .next t) :
    t.pc.toNat = s.pc.toNat + 2 ∨ t.pc.toNat = s.pc.toNat + 4 := by
  obtain ⟨d, -, rfl⟩ := onDigit_next_iff.mp h
  exact State.skipIf_advancePc_toNat hin (c d)

/-- The writes of pc that 10_state.md R26 lists, each without a wrap; the instructions it does not list leave the fetch
advance. -/
theorem exec_pcAfter {i : Instr} {s t : State} (hin : s.pc.toNat + 1 < Config.memSize) (hb : s.stackBounded = true)
    (h : exec i s.advancePc = .next t) : pcAfter i s t.pc.toNat := by
  have hnext := State.advancePc_toNat hin
  cases i with
  | jp nnn => cases h; exact addrWord_toNat nnn
  | call nnn =>
    obtain ⟨-, rfl⟩ := execCall_next h
    exact addrWord_toNat nnn
  | jpV0 nnn => cases h; exact s.advancePc.offsetTarget_toNat nnn
  | ret =>
    obtain ⟨hsp, rfl⟩ := execRet_next (s := s.advancePc) h
    have hsp : 0 < s.sp.val := hsp
    let k : StackIndex := ⟨s.sp.val - 1, by omega⟩
    have hbound : s.stack[k].toNat ≤ Config.memSize := s.stackBounded_iff.mp hb k (Nat.sub_lt hsp Nat.one_pos)
    exact ⟨k, Nat.sub_add_cancel hsp, rfl, hbound⟩
  | seImm | sneImm | seReg | sneReg => cases h; exact State.skipIf_advancePc_toNat hin _
  | skp x => exact onDigit_skip_toNat hin ((execSkp_eq x s.advancePc).symm.trans h)
  | sknp x => exact onDigit_skip_toNat hin ((execSknp_eq x s.advancePc).symm.trans h)
  | ldVxK x =>
    cases h
    split
    · exact .inr (by rw [State.retreatPc_advancePc, Nat.add_sub_cancel])
    · exact .inl hnext
  | sys nnn => cases h
  | _ => exact (congrArg BitVec.toNat (exec_frame h .pc (by simp [writes]))).trans hnext

/-- The highest of these values is that of BNNN (10_state.md R26). -/
theorem pcAfter_le_maxPc {i : Instr} {s : State} {pc : Nat} (hin : s.pc.toNat + 1 < Config.memSize)
    (h : pcAfter i s pc) : pc ≤ maxPc := by
  rw [Config.memSize] at hin
  rw [maxPc]
  cases i with
  | jp nnn | call nnn => have hnnn := nnn.isLt; rw [pcAfter] at h; omega
  | jpV0 nnn => have hnnn := nnn.isLt; have hv := (s.reg 0).isLt; rw [pcAfter] at h; omega
  | ret => obtain ⟨-, -, -, hle⟩ := h; rw [Config.memSize] at hle; omega
  | sys nnn => exact h.elim
  | _ => rw [pcAfter] at h; omega

/-! ### The invariant -/

theorem advancePc_inv {s : State} (h : s.Inv) (hin : s.pc.toNat + 1 < Config.memSize) : s.advancePc.Inv := by
  obtain ⟨hwf, -, hb⟩ := h
  refine ⟨hwf, ?_, hb⟩
  rw [State.advancePc_toNat hin, maxPc]
  rw [Config.memSize] at hin
  omega

theorem exec_inv {i : Instr} {s t : State} (h : s.Inv) (hin : s.pc.toNat + 1 < Config.memSize)
    (hx : exec i s.advancePc = .next t) : t.Inv := by
  obtain ⟨hwf, -, hb⟩ := h
  have hpc : s.advancePc.pc.toNat ≤ Config.memSize := by
    rw [State.advancePc_toNat hin]
    omega
  exact ⟨exec_keeps_wf hx hwf, pcAfter_le_maxPc hin (exec_pcAfter hin hb hx), exec_keeps_stackBounded hx hb hpc⟩

/-- A tick, failed or not, keeps the invariant: it advances pc only after a fetch inside memory. -/
theorem tick_inv {s t : State} (h : s.Inv) (ht : (tick s).stateLeft = some t) : t.Inv := by
  by_cases hin : s.pc.toNat + 1 < Config.memSize
  · obtain rfl | rfl | ⟨i, -, hx⟩ := tick_stateLeft_cases ht
    · exact h
    · exact advancePc_inv h hin
    · exact exec_inv h hin hx
  · rw [tick_of_fetch_error (fetch_of_outside (Nat.not_lt.mp hin))] at ht
    cases ht
    exact h

/-- Settles O57: nothing is listed in memory, pc is 0x200, and the stack is empty. -/
theorem resetMeetsTheInvariant : Obligations.ResetMeetsTheInvariant :=
  ⟨reset_mem_wf, by decide, by decide⟩

theorem load_inv {bytes : List Byte} {s t : State} (h : s.Inv) (ht : (load bytes s).stateLeft = some t) : t.Inv := by
  obtain ⟨hwf, hpc, hb⟩ := h
  unfold load at ht
  split at ht
  next hfits =>
    cases ht
    exact ⟨Memory.wf_writeList hwf (Nat.add_le_add_left hfits Config.loadAddr), hpc, hb⟩
  next =>
    cases ht
    exact ⟨hwf, hpc, hb⟩

theorem operate_inv {move : HostMove} {s t : State} (h : s.Inv) (ht : (operate move s).stateLeft = some t) : t.Inv := by
  cases move with
  | construct => cases ht; exact resetMeetsTheInvariant
  | load bytes => exact load_inv h ht
  | tick input => exact tick_inv (s := s.withInput input) h ht
  | decrementTimers => cases ht; exact h
  | display => cases ht; exact h

/-- Settles O58: a step is an operation of the host on the same core, and each of the five keeps the invariant. -/
theorem everyOperationKeepsTheInvariant : Obligations.EveryOperationKeepsTheInvariant := by
  refine ⟨fun s t h hstep => ?step, fun move s t h => operate_inv h⟩
  case step =>
    have hmove : s.nextMove.2.Inv := by
      rw [State.nextMove_snd]
      exact h
    exact operate_inv hmove (by rw [step_next_iff.mp hstep]; rfl)

/-- Settles O59: a fetch that succeeds leaves room for the advance and for a skip, and the invariant bounds the targets that
come from the stack. -/
theorem pcNeverWraps : Obligations.PcNeverWraps := by
  intro s h
  have hnext {op : Word} (hf : fetch s = .ok op) : (afterFetch s).pc.toNat = s.pc.toNat + 2 :=
    State.advancePc_toNat (fetch_succeeds_iff.mp ⟨op, hf⟩)
  refine ⟨fun op hf => ?fetch, fun i t hi ht => ?succeeds, fun e t ht => ?fails, fun t ht => ?bound⟩
  case fetch =>
    have hin := fetch_succeeds_iff.mp ⟨op, hf⟩
    exact ⟨hnext hf, (hnext hf).trans_le (by omega)⟩
  case succeeds =>
    obtain ⟨op, hf, hd⟩ := hi
    obtain ⟨-, -, hb⟩ := h
    have hx : exec i s.advancePc = .next t := by
      rw [← execute_outcome, ← tick_of_decode_ok hf hd, ht]
      rfl
    exact exec_pcAfter (fetch_succeeds_iff.mp ⟨op, hf⟩) hb hx
  case fails =>
    obtain ⟨hf, rfl⟩ | ⟨op, -, hf, -, -, rfl⟩ | ⟨op, -, hf, -, -, rfl⟩ := tick_err_cases ht
    · exact .inl ⟨fun op hok => (nomatch hf.symm.trans hok), rfl⟩
    · exact .inr ⟨⟨op, hf⟩, hnext hf⟩
    · exact .inr ⟨⟨op, hf⟩, hnext hf⟩
  case bound =>
    obtain ⟨-, hpc, -⟩ := tick_inv h ht
    exact hpc

end Sys2Proof.Claims
end

section
/-! A step of the host (70_reset_and_hazards.md R265) and a program in memory: the word at pc is the
instruction a tick runs. -/

namespace Sys2Proof.Machine

theorem State.advancePc_frame (s : State) : FrameExcept s s.advancePc (fun p => p = .pc) := s.setPc_frame _

theorem State.withInput_frame (s : State) (input : TickInput) :
    FrameExcept s (s.withInput input) (fun p => p = .host) := by
  intro p hp
  cases p with
  | host => exact absurd rfl hp
  | _ => rfl

end Sys2Proof.Machine

namespace Sys2Proof.Claims

open Sys2Proof.Machine

/-- Settles O8: the next move is the head of the list, or the free call when the list is empty. -/
theorem stepPerformsTheNextHostCall : Obligations.StepPerformsTheNextHostCall := by
  refine ⟨fun s move rest h => ?listed, fun s h => ?free⟩
  case listed => rw [step, State.nextMove_cons s h]
  case free => rw [step, State.nextMove_nil s h]

/-- Settles O7: taking the call off the list leaves pc and memory, so the tick fetches the two bytes at pc. -/
theorem stepRunsTheInstructionAtPc : Obligations.StepRunsTheInstructionAtPc := by
  intro s s' input i hmove hin hd
  have hpc : s'.pc = s.pc := by rw [← s.nextMove_pc, hmove]
  have hbyte (a : Nat) : s'.byte a = s.byte a := by rw [State.byte, State.byte, ← s.nextMove_mem, hmove]
  have hf : fetch (s'.withInput input) = .ok (wordOfBytes (s.byte s.pc.toNat) (s.byte (s.pc.toNat + 1))) := by
    rw [fetch_of_inside (by rwa [State.withInput_pc, hpc])]
    simp only [State.withInput_pc, State.withInput_byte, hpc, hbyte]
  calc step s = (tick (s'.withInput input)).outcome := by rw [step, hmove]; rfl
    _ = (execute i (s'.withInput input).advancePc).outcome := by rw [tick_of_decode_ok hf hd]
    _ = exec i (afterFetch (s'.withInput input)) := execute_outcome i _

/-! ### Programs in memory -/

theorem tick_of_holds {s : State} {i : Instr} (h : holds s s.pc.toNat i) (hwf : i.wellFormed = true) :
    tick s = execute i s.advancePc := by
  obtain ⟨hin, hword⟩ := h
  exact tick_of_decode_ok (fetch_of_inside hin) (hword ▸ decodeWord_encode hwf)

/-- Settles O60: the jump's target is the address the fetch advanced from. -/
theorem parkedProgramIsAFixedPoint : Obligations.ParkedProgramIsAFixedPoint := by
  rintro s ⟨nnn, hpc, hholds⟩
  calc tick s = execute (.jp nnn) s.advancePc := tick_of_holds hholds rfl
    _ = .ok (s.advancePc.setPc (addrWord nnn)) := rfl
    _ = .ok s := by rw [← hpc]; rfl

/-- Settles O23: CALL pushes the address after it, RET at its target pops that address, and what the two write besides is
the popped entry. -/
theorem callThenRetComesBack : Obligations.CallThenRetComesBack := by
  intro s nnn input hsp hcall hret
  obtain ⟨-, hcallSpec⟩ := callPushesPcAndJumps
  obtain ⟨-, hretSpec⟩ := retPopsTheReturnAddress
  obtain ⟨t, hx, htpc, htsp, htop, htframe⟩ := (hcallSpec nnn s.advancePc).2 hsp
  have htbyte (a : Nat) : t.byte a = s.byte a := htframe (.byte a) (by simp)
  have hheld : holds (t.withInput input) (t.withInput input).pc.toNat .ret := by
    simpa only [holds, State.withInput_pc, State.withInput_byte, htpc, htbyte] using hret
  have hone : (t.withInput input).advancePc.sp.val = s.sp.val + 1 := htsp
  obtain ⟨u, hy, husp, hupc, huframe⟩ := (hretSpec (t.withInput input).advancePc).2 (by omega)
  refine ⟨t, u, ?call, ?ret, ?pc, ?frame⟩
  case call => exact (tick_of_holds hcall rfl).trans (execute_of_next hx)
  case ret => exact (tick_of_holds hheld rfl).trans (execute_of_next hy)
  case pc => exact (hupc ⟨s.sp.val, hsp⟩ (by rw [hone]; rfl)).trans (htop ⟨s.sp.val, hsp⟩ rfl)
  case frame =>
    have hboth := (((s.advancePc_frame.trans htframe).trans (t.withInput_frame input)).trans
      (t.withInput input).advancePc_frame).trans huframe
    intro p hp
    by_cases hpsp : p = .sp
    · have hdepth : u.sp = s.sp := Fin.ext (by omega)
      rwa [hpsp]
    · refine hboth p fun hw => hp ?_
      simp only [State.advancePc_sp] at hw
      tauto

end Sys2Proof.Claims
end

section
/-! Two instructions in a row: what the second reads of what the first wrote to memory or to the display (R63, R188,
R203).  Each is put together from the settled statements on the two instructions and the frame of every instruction. -/

namespace Sys2Proof.Claims

open Sys2Proof.Machine

/-- Settles O13: the frame of each instruction, along the forms of their meanings. -/
theorem everyInstructionChangesOnlyWhatItWrites : Obligations.EveryInstructionChangesOnlyWhatItWrites :=
  fun _ _ _ => exec_frame

/-- An instruction that completes has raised none of its errors. -/
theorem not_raises_of_next {i : Instr} {s t : State} {e : Fault} (h : exec i s = .next t) : ¬raises i s e :=
  fun hr => nomatch h.symm.trans (exec_fault_iff.mpr hr)

/-! ### Memory -/

theorem ea_eq_of_index {s t : State} (h : t.I = s.I) (k : Nat) : t.ea k = s.ea k := by rw [State.ea, State.ea, h]

/-- A dump and a load of the same registers: those up to VX come back through memory, and neither writes the others. -/
theorem dump_then_load (x : Reg) (s : State) (hin : s.I.toNat + x.val < Config.memSize) :
    ∃ t u, exec (.ldMemVx x) s = .next t ∧ exec (.ldVxMem x) t = .next u ∧ ∀ j, u.reg j = s.reg j := by
  obtain ⟨-, hdump⟩ := registerDumpStoresV0ToVX
  obtain ⟨-, hload⟩ := registerLoadReadsV0ToVX
  obtain ⟨t, ht, htbyte, htframe⟩ := (hdump x s).2 hin
  have hI : t.I = s.I := htframe .index (by simp)
  obtain ⟨u, hu, hureg, huframe⟩ := (hload x t).2 (hI.symm ▸ hin)
  refine ⟨t, u, ht, hu, fun j => ?_⟩
  by_cases hj : j ≤ x
  · rw [hureg j hj, ea_eq_of_index hI, htbyte j hj]
  · have hut : u.reg j = t.reg j := huframe (.reg j) (by simpa using lt_of_not_ge hj)
    have hts : t.reg j = s.reg j := htframe (.reg j) (by simp)
    exact hut.trans hts

theorem bcd_then_load (x : Reg) (s : State) (hin : s.I.toNat + 2 < Config.memSize) :
    ∃ t u, exec (.ldB x) s = .next t ∧ exec (.ldVxMem 2) t = .next u ∧ (u.reg 0).toNat = (s.reg x).toNat / 100 ∧
      (u.reg 1).toNat = (s.reg x).toNat / 10 % 10 ∧ (u.reg 2).toNat = (s.reg x).toNat % 10 := by
  obtain ⟨-, -, hbcd⟩ := storeBcdWritesThreeDigits
  obtain ⟨-, hload⟩ := registerLoadReadsV0ToVX
  obtain ⟨t, ht, hhundreds, htens, hones, htframe⟩ := (hbcd x s).2 hin
  have hI : t.I = s.I := htframe .index (by simp)
  obtain ⟨u, hu, hureg, -⟩ := (hload 2 t).2 (hI.symm ▸ hin)
  have hread (k : Reg) (hk : k ≤ 2) : u.reg k = t.byte (s.ea k.val) := by rw [hureg k hk, ea_eq_of_index hI]
  refine ⟨t, u, ht, hu, ?_, ?_, ?_⟩
  · rw [hread 0 (by decide)]; exact hhundreds
  · rw [hread 1 (by decide)]; exact htens
  · rw [hread 2 (by decide)]; exact hones

/-- Settles O42: neither store moves I, so the load reads the bytes stored. -/
theorem storeThenLoadGivesTheValuesBack : Obligations.StoreThenLoadGivesTheValuesBack :=
  ⟨dump_then_load, bcd_then_load⟩

/-- Settles O43: the two bytes at I + k and I + k + 1 are Vk and V(k+1), and the dump stays inside memory. -/
theorem dumpedBytesAreFetchedNext : Obligations.DumpedBytesAreFetchedNext := by
  intro x k k' s t u hk hle hx hmem hpc
  have hin : s.I.toNat + x.val < Config.memSize := by
    by_contra hout
    exact not_raises_of_next (e := .outOfBounds) hx ⟨rfl, Nat.not_lt.mp hout⟩
  obtain ⟨-, hdump⟩ := registerDumpStoresV0ToVX
  obtain ⟨t', ht', hbyte, -⟩ := (hdump x s).2 hin
  obtain rfl : t = t' := Host.Outcome.next.inj (hx.symm.trans ht')
  have hread (j : Reg) (hj : j ≤ x) : u.byte (s.ea j.val) = s.reg j := by
    rw [State.byte, hmem]
    exact hbyte j hj
  have hle' : k'.val ≤ x.val := hle
  have hnext : u.pc.toNat + 1 = s.ea k'.val := by rw [hpc, hk]; rfl
  rw [fetch_of_inside (by rw [hnext, State.ea]; omega), hnext, hpc, hread k (Fin.le_def.mpr (by omega)), hread k' hle]

/-! ### The display -/

theorem spriteOn_congr {s t : State} {x y : Reg} (hbyte : ∀ a, t.byte a = s.byte a) (hI : t.I = s.I)
    (hx : t.reg x = s.reg x) (hy : t.reg y = s.reg y) (n : Fin 16) (px : Fin 64) (py : Fin 32) :
    spriteOn t x y n px py ↔ spriteOn s x y n px py := by
  simp only [spriteOn, hbyte, ea_eq_of_index hI, hx, hy]

/-- Settles O46: the second draw flips the cells of the first back, and meets an on cell where the first met an off one. -/
theorem drawingTwiceRestoresTheDisplay : Obligations.DrawingTwiceRestoresTheDisplay := by
  intro x y n s t hdraw hx hy
  obtain ⟨-, hspec⟩ := drawXorsTheSpriteAndReportsCollision
  have hin : n.val = 0 ∨ s.I.toNat + n.val - 1 < Config.memSize := by
    by_contra hout
    exact not_raises_of_next (e := .outOfBounds) hdraw ⟨rfl, by omega, by omega⟩
  obtain ⟨t', ht', hton, htoff, -, -, htframe⟩ := (hspec x y n s).2 hin
  obtain rfl : t = t' := Host.Outcome.next.inj (hdraw.symm.trans ht')
  have hI : t.I = s.I := htframe .index (by simp)
  have hsame := spriteOn_congr (fun a => htframe (.byte a) (by simp)) hI hx hy n
  obtain ⟨u, hu, huon, huoff, hhit, hmiss, -⟩ := (hspec x y n t).2 (hI.symm ▸ hin)
  have hcollision : (∃ px py, spriteOn t x y n px py ∧ t.pixel px py = true) ↔
      ∃ px py, spriteOn s x y n px py ∧ s.pixel px py = false := by
    simp only [hsame]
    refine exists_congr fun px => exists_congr fun py => and_congr_right fun hon => ?_
    rw [hton px py hon, Bool.not_eq_true']
  refine ⟨u, hu, fun px py => ?pixel, ?flag, ?bit⟩
  case pixel =>
    by_cases hon : spriteOn s x y n px py
    · rw [huon px py ((hsame px py).mpr hon), hton px py hon, Bool.not_not]
    · rw [huoff px py (mt (hsame px py).mp hon), htoff px py hon]
  case flag =>
    rw [← hcollision]
    refine ⟨fun hone => ?_, hhit⟩
    by_contra hno
    exact absurd ((hmiss hno).symm.trans hone) (by decide)
  case bit => exact (em _).symm.imp hmiss hhit

end Sys2Proof.Claims
end
